-- ==== Sys2Proof/Word.lean ====
section
/-! DEFINITION. The values the engine handles: the command word and one number of the open format NUM. -/

namespace Sys2Proof

/-- The 32-bit command word the host hands over (30_encoding.md rule R90), bit 0 least significant. -/
abbrev CommandWord := BitVec 32

/-- One value of the open number format `NUM` (00_scope.md rule R9), held as its code. Nothing in the model looks
inside the code: every operation on it is one of the format's own (`NumFormat` in Config.lean).
DESIGN CHOICE, safe: log 1. -/
structure Number where
  /-- which value of the format this is -/
  code : Nat
deriving DecidableEq, Repr, Inhabited

end Sys2Proof
end

