-- ==== Sys2Proof/Config.lean ====
section
/-! DEFINITION. The open parameters of 00_scope.md rule R9 and the model's free values: constants with no body. -/

namespace Sys2Proof

/-- The number format `NUM` over a carrier `α` (00_scope.md rule R9, rule R10): `+ − × ÷ sin cos tan`, comparison, the
decimal constants, and which values are finite. Every operator the spec's pseudocode writes is one of these, applied
once, in the order written. Log 1, log 2, log 3. -/
structure NumFormat (α : Type) where
  add : α → α → α
  sub : α → α → α
  mul : α → α → α
  div : α → α → α
  sin : α → α
  cos : α → α
  tan : α → α
  /-- `x <= y`; false where the two are not ordered (45_harmonic_canceller.md rule R235) -/
  le : α → α → Bool
  /-- `x < y`; false where the two are not ordered -/
  lt : α → α → Bool
  /-- the constant `m / 10^e` -/
  decimal : Int → Nat → α
  /-- the constant π (40_carrier_generator.md rule R121) -/
  pi : α
  /-- the value is neither an infinity nor a NaN (00_scope.md rule R10, 93_implementation_defined.md U3) -/
  finite : α → Bool
deriving Inhabited

/-- The open parameters of 00_scope.md rule R9 a command depends on. The estimator `EST` is not here: its answers are
data in State (log 10). -/
structure Params (α : Type) where
  /-- `NUM` -/
  num : NumFormat α
  /-- `WIDTH_MAX − 3`, so that `3 <= WIDTH_MAX <= 65534` holds of every value -/
  widthMaxAboveThree : Fin 65532
  /-- `HIST_RESET_L` -/
  histResetL : Nat → α
  /-- `HIST_RESET_C` -/
  histResetC : Nat → α
deriving Inhabited

/-- `WIDTH_MAX`, the largest width the engine's storage holds (00_scope.md rule R9). -/
def Params.widthMax {α : Type} (P : Params α) : Nat := 3 + P.widthMaxAboveThree.val

/-- The parameters of this engine: the spec fixes none of them and constrains none but `WIDTH_MAX` (00_scope.md rule R9).
The model takes them as an argument everywhere (`engineStep`); this constant is what `exec` and `step` give for it. Log 1,
log 4. -/
opaque Config.params : Params Number

/-- A free 16-bit value: what an unspecified `WIDTH` holds or reads as. Log 7, log 8. -/
opaque Config.freeWidth : Nat → BitVec 16

/-- A free bit: what an unspecified `HMODE` or `PHASE` holds or reads as. The second argument tells apart two free bits
drawn together. Log 7, log 8. -/
opaque Config.freeBit : Nat → Nat → BitVec 1

/-- A free number: what an unspecified filter register holds. The second argument tells apart numbers drawn together.
Log 7. -/
opaque Config.freeNum : Nat → Nat → Number

/-- A free number for each element of `LINE_OUT`: what it reads as, every time, as long as nothing has written it since
the `n`-th reset. Log 8. -/
opaque Config.freeLineOut : Nat → Nat → Number

end Sys2Proof
end

