-- ==== Sys2Proof/Syntax.lean ====
section
/-! DEFINITION. The commands of the engine: one constructor per row of spec/opcode_table.json. -/

namespace Sys2Proof

/-- A command the host can issue (30_encoding.md rule R93). -/
inductive Instr where
  /-- `CREATE width, h` (46_context_commands.md rule R260): `width` is the unsigned operand of `bits[23:0]`, `h` is
  `bits[24]`, harmonic decode mode (30_encoding.md rule R92) -/
  | create (width : Nat) (h : BitVec 1)
  /-- `ENCODE` (43_modulator.md rule R180) -/
  | encode
  /-- `DECODE` (44_demodulator.md rule R200) -/
  | decode
  /-- `DESTROY` (46_context_commands.md rule R263) -/
  | destroy
deriving DecidableEq, Repr

end Sys2Proof
end

