-- ==== Sys2Proof/Machine/State.lean ====
section
/-! DEFINITION. The state of the engine as plain data (10_state.md rule R20), the host's and the estimator's pending
moves beside it, the reasons a step can stop, and the state after reset. -/

namespace Sys2Proof.Machine

/-- The seven registers of one biquad filter (10_state.md rule R28). -/
structure Biquad (α : Type) where
  a0 : α
  a1 : α
  a2 : α
  b1 : α
  b2 : α
  z1 : α
  z2 : α
deriving DecidableEq, Repr, Inhabited

/-- A buffer, addressed by element index (20_memory.md rule R60): the elements that hold a value, as (index, value)
pairs, indices strictly rising. An index that is not listed holds no value (log 6). -/
abbrev Buffer (α : Type) := List (Nat × α)

/-- The canonical form of a buffer: indices strictly rising. -/
abbrev Buffer.wf {α : Type} (b : Buffer α) : Prop := (b.map Prod.fst).Pairwise (· < ·)

/-- One spectral component of an estimator answer (45_harmonic_canceller.md rule R231). -/
structure Estimate (α : Type) where
  /-- radians per sample -/
  frequency : α
  magnitude : α
  /-- radians, referred to local index 0 of the block -/
  phase : α
deriving DecidableEq, Repr, Inhabited

/-- A query to the estimator (45_harmonic_canceller.md rule R231): the block of samples and `k`. -/
structure Query (α : Type) where
  samples : List α
  k : Nat
deriving DecidableEq, Repr, Inhabited

/-- A harmonic-mode DECODE that waits for the answer to the query of block `block` (70_reset_and_hazards.md rule R341):
the luma line as corrected so far and the comb-chroma line, the temporaries `LS` and `XS` of 10_state.md rule R34. -/
structure Waiting where
  block : Nat
  ls : List Number
  xs : List Number
deriving DecidableEq, Repr, Inhabited

/-- A move of the host (70_reset_and_hazards.md rule R345). -/
inductive HostMove where
  /-- hardware reset -/
  | reset
  /-- issue the command word `c` -/
  | command (c : CommandWord)
  /-- `LINE_IN[k] <- v` -/
  | writeLineIn (k : Nat) (v : Number)
  /-- read `LINE_OUT[k]` -/
  | readLineOut (k : Nat)
  /-- read control register `n` (10_state.md rule R38) -/
  | readControl (n : Nat)
deriving DecidableEq, Repr

/-- What one read of the host returned (70_reset_and_hazards.md rule R343). -/
inductive HostRead where
  | lineOut (k : Nat) (v : Number)
  /-- control register `n`, zero-extended to a word (10_state.md rule R38) -/
  | control (n : Nat) (v : BitVec 32)
deriving DecidableEq, Repr

/-- The names of the seven address spaces (20_memory.md rule R60). -/
inductive BufferName where
  | sin
  | cos
  | cb
  | pl
  | pc
  | lineIn
  | lineOut
deriving DecidableEq, Repr

/-- The errors a command can report (60_exceptions.md rules R291 to R293). They are result codes, not stops. -/
inductive EngineError where
  /-- CreationError, cause width (rule R291) -/
  | createWidth
  /-- CreationError, cause storage (rule R291) -/
  | createStorage
  /-- ContractViolation (rule R292) -/
  | contract
  /-- illegal command (rule R293) -/
  | illegal
deriving DecidableEq, Repr

/-- The ways the machine stops with a fault. -/
inductive Fault where
  /-- Raised by MemRead of an element that holds no value: a `LINE_IN` element the host has not written since reset
  (70_reset_and_hazards.md rule R333, 93 U10), or context state that is unspecified (10_state.md rule R39, 93 U7). Safe. -/
  | noValue (b : BufferName) (i : Nat)
  /-- Raised by MemRead or MemWrite at an index the buffer does not have (20_memory.md rule R61). No run reaches it
  (rule R62). Safe. -/
  | indexOutOfRange (b : BufferName) (i : Nat)
  /-- Raised by `step` when a DECODE waits for an answer the estimator never gives and the host does not reset: a state
  with no enabled step (70_reset_and_hazards.md rule R341, 93 U12). Safe. -/
  | estimatorNeverAnswers
deriving DecidableEq, Repr

/-- The situations the spec gives no meaning. -/
inductive Refusal where
  /-- Raised by `exec` for an instruction with no meaning in the model; no arm does. Safe. -/
  | notModelled (mnemonic : String)
  /-- Raised by CREATE with width 0, 1 or 2 (46_context_commands.md rule R261, 93 U4). Safe. -/
  | widthBelowThree (width : Nat)
  /-- Raised by a host read of a control register above 4 (10_state.md rule R38, 93 U8). Safe. -/
  | noSuchControlRegister (n : Nat)
  /-- Raised by a host access to `LINE_IN[k]` or `LINE_OUT[k]` with `k >= 3·WIDTH_MAX`, which is no move of the host
  (70_reset_and_hazards.md rule R345). Safe. -/
  | noSuchLineElement (k : Nat)
  /-- Raised by CREATE, ENCODE and DECODE when an input or an intermediate value of the command is not finite, which only a
  `NUM` with infinities or NaNs has (00_scope.md rule R10, 93 U3). Safe. -/
  | nonFiniteValue
deriving DecidableEq, Repr

/-- The engine's state (10_state.md rule R20), a command in progress, and the two outside agents' moves. -/
structure State where
  /-- `CTX_VALID` (rule R21) -/
  ctxValid : BitVec 1
  /-- `STATUS` (rule R25) -/
  status : BitVec 8
  /-- `WIDTH` (rule R22) -/
  width : BitVec 16
  /-- `HMODE` (rule R23) -/
  hmode : BitVec 1
  /-- `PHASE` (rule R24) -/
  phase : BitVec 1
  /-- `FI`, the in-phase filter (rule R28) -/
  fi : Biquad Number
  /-- `FQ`, the quadrature filter (rule R28) -/
  fq : Biquad Number
  /-- `SIN` (rule R30) -/
  sin : Buffer Number
  /-- `COS` (rule R30) -/
  cos : Buffer Number
  /-- `CB`, pairs (I, Q) (rule R31) -/
  cb : Buffer (Number × Number)
  /-- `PL`, luma history (rule R32) -/
  pl : Buffer Number
  /-- `PC`, chroma history (rule R32) -/
  pc : Buffer Number
  /-- `LINE_IN` (rule R33) -/
  lineIn : Buffer Number
  /-- `LINE_OUT` (rule R33) -/
  lineOut : Buffer Number
  /-- a DECODE with an outstanding query; `none` when the engine is idle (rule R35) -/
  waiting : Option Waiting
  /-- the model's own: the host's coming moves, next first (log 9) -/
  hostMoves : List HostMove
  /-- the model's own: what the host has read, latest first (log 8) -/
  hostReads : List HostRead
  /-- the model's own: the estimator's coming answers, next first (log 10) -/
  estAnswers : List (List (Estimate Number))
  /-- the model's own: the queries the estimator has received, oldest first (log 10) -/
  estQueries : List (Query Number)
  /-- the model's own: how often free values have been drawn (log 7, log 8) -/
  freeCount : Nat
  /-- the model's own: how often the host has reset the engine (log 8) -/
  resetCount : Nat
deriving DecidableEq, Repr

/-- Every buffer is in canonical form. -/
abbrev Memory.wf (s : State) : Prop :=
  s.sin.wf ∧ s.cos.wf ∧ s.cb.wf ∧ s.pl.wf ∧ s.pc.wf ∧ s.lineIn.wf ∧ s.lineOut.wf

/-- The filter registers' named value at reset: every register the `NUM` with code 0. DESIGN CHOICE, unsafe: log 5. -/
def Biquad.atReset : Biquad Number := ⟨⟨0⟩, ⟨0⟩, ⟨0⟩, ⟨0⟩, ⟨0⟩, ⟨0⟩, ⟨0⟩⟩

/-- The machine right after hardware reset (10_state.md rule R39, 70_reset_and_hazards.md rule R330): no context, `STATUS`
`OK`, idle, no element of any buffer holding a value. The other registers hold the values log 5 names. -/
def State.reset : State where
  ctxValid := 0
  status := 0
  width := 0
  hmode := 0
  phase := 0
  fi := Biquad.atReset
  fq := Biquad.atReset
  sin := []
  cos := []
  cb := []
  pl := []
  pc := []
  lineIn := []
  lineOut := []
  waiting := none
  hostMoves := []
  hostReads := []
  estAnswers := []
  estQueries := []
  freeCount := 0
  resetCount := 0

end Sys2Proof.Machine
end

