-- ==== Sys2Proof/Machine/Constants.lean ====
section
/-! DEFINITION. The fixed constants of 00_scope.md rule R8, exact decimals in the format's own constants. -/

namespace Sys2Proof.Machine

variable {α : Type}

/-- `WIDTH_LIMIT`: CREATE fails at this width and above. -/
def widthLimit : Nat := 65535

/-- `SHIFT`, the samples of priming and draining (`chroma_shift`). -/
def shift : Nat := 3

/-- `W`, the canceller's window length, and the hard-wired register `FBW` (10_state.md rule R27). -/
def windowLength : Nat := 16

/-- `HOP = W/2`. -/
def hop : Nat := 8

/-- `K_EST`, the components requested per query. -/
def kEst : Nat := 4

/-- The integer `n` as a number of the format (00_scope.md rule R11). -/
def numOfNat (N : NumFormat α) (n : Nat) : α := N.decimal n 0

/-- `0`. -/
def numZero (N : NumFormat α) : α := N.decimal 0 0

/-- `1`. -/
def numOne (N : NumFormat α) : α := N.decimal 1 0

/-- `2`, also `DEMOD_GAIN = 2.0` and `BAND_LO = 2.0`: one number, whatever its spelling. -/
def numTwo (N : NumFormat α) : α := N.decimal 2 0

/-- `Q_FACTOR = 0.7`. -/
def qFactor (N : NumFormat α) : α := N.decimal 7 1

/-- `FC_I = 0.08`. -/
def fcI (N : NumFormat α) : α := N.decimal 8 2

/-- `FC_Q = 0.05`. -/
def fcQ (N : NumFormat α) : α := N.decimal 5 2

/-- `BAND_LO = 2.0`. -/
def bandLo (N : NumFormat α) : α := numTwo N

/-- `BAND_HI = 2.3`. -/
def bandHi (N : NumFormat α) : α := N.decimal 23 1

/-- `DEMOD_GAIN = 2.0`. -/
def demodGain (N : NumFormat α) : α := numTwo N

end Sys2Proof.Machine
end

