-- ==== Sys2Proof/Machine/Ops.lean ====
section
/-! DEFINITION. The named operations over buffers, the free values, and reporting an error. -/

namespace Sys2Proof.Machine

variable {α β : Type}

/-- The value of element `i`, or `none` where the buffer holds none. -/
def bufGet : Buffer α → Nat → Option α
  | [], _ => none
  | (j, v) :: rest, i => if j = i then some v else bufGet rest i

/-- Element `i` becomes `v`; the indices stay rising. -/
def bufPut : Buffer α → Nat → α → Buffer α
  | [], i, v => [(i, v)]
  | (j, u) :: rest, i, v =>
    if i < j then (i, v) :: (j, u) :: rest
    else if i = j then (i, v) :: rest
    else (j, u) :: bufPut rest i v

/-- Elements `start, start+1, ...` become the values of the list, in increasing index. -/
def bufPutAll : Buffer α → Nat → List α → Buffer α
  | b, _, [] => b
  | b, start, v :: vs => bufPutAll (bufPut b start v) (start + 1) vs

/-- `MemRead(B, i)` on a buffer `name` of `size` elements (20_memory.md rule R61). -/
def memRead (size : Nat) (name : BufferName) (b : Buffer α) (i : Nat) : Except Fault α :=
  if i < size then
    match bufGet b i with
    | some v => .ok v
    | none => .error (.noValue name i)
  else .error (.indexOutOfRange name i)

/-- `MemWrite(B, i, v)` (20_memory.md rule R61). -/
def memWrite (size : Nat) (name : BufferName) (b : Buffer α) (i : Nat) (v : α) : Except Fault (Buffer α) :=
  if i < size then .ok (bufPut b i v) else .error (.indexOutOfRange name i)

/-- `f start, f (start+1), ...`, `n` of them in that order, the first fault ending it (00_scope.md rule R14). -/
def collect (f : Nat → Except Fault β) (start : Nat) : Nat → Except Fault (List β)
  | 0 => .ok []
  | n + 1 => do
    let x ← f start
    let xs ← collect f (start + 1) n
    .ok (x :: xs)

/-- MemWrite of the list's values at `start, start+1, ...`. -/
def memWriteAll (size : Nat) (name : BufferName) : Buffer α → Nat → List α → Except Fault (Buffer α)
  | b, _, [] => .ok b
  | b, start, v :: vs => do
    let b' ← memWrite size name b start v
    memWriteAll size name b' (start + 1) vs

/-- A buffer whose elements `0 .. n-1` hold `f 0 .. f (n-1)` and that has no other. -/
def bufTabulate (n : Nat) (f : Nat → α) : Buffer α := (List.range n).map fun i => (i, f i)

/-- A computation that may fault, as the outcome of a step. -/
def outcomeOf : Except Fault State → Host.Outcome State Fault Refusal
  | .ok s => .next s
  | .error f => .fault f

/-- The result code of each error (10_state.md rule R25, 60_exceptions.md rules R291 to R293). -/
def errorCode : EngineError → BitVec 8
  | .createWidth => 1
  | .createStorage => 2
  | .contract => 3
  | .illegal => 4

/-- `raise <Error>`: the error's code goes to `STATUS`, nothing else changes and the command ends (60_exceptions.md rule
R290, rule R296). There is no saved program counter, vector, cause register or mode to set, and no return operation:
the engine is idle again (rule R297). -/
def raiseError (e : EngineError) (s : State) : State := { s with status := errorCode e }

/-- A filter whose seven registers are free values of draw `n`, told apart from `base` on (46_context_commands.md rule
R263). Log 7. -/
def freeBiquad (n base : Nat) : Biquad Number where
  a0 := Config.freeNum n base
  a1 := Config.freeNum n (base + 1)
  a2 := Config.freeNum n (base + 2)
  b1 := Config.freeNum n (base + 3)
  b2 := Config.freeNum n (base + 4)
  z1 := Config.freeNum n (base + 5)
  z2 := Config.freeNum n (base + 6)

/-- Hardware reset at any time (70_reset_and_hazards.md rule R330, rule R345): the engine's state is that of
`State.reset`; a command in progress and its query are abandoned. What the two outside agents have done and will do is
not the engine's and stays. Log 12. -/
def hardReset (s : State) : State :=
  { State.reset with
    hostMoves := s.hostMoves
    hostReads := s.hostReads
    estAnswers := s.estAnswers
    estQueries := s.estQueries
    freeCount := s.freeCount
    resetCount := s.resetCount + 1 }

end Sys2Proof.Machine
end

