-- ==== Sys2Proof/Machine/Flags.lean ====
section
/-! DEFINITION. The flag-like state of 10_state.md rule R40. The engine has no condition codes and no arithmetic flags. -/

namespace Sys2Proof.Machine

/-- `PHASE ^ 1` (10_state.md rule R24). -/
def togglePhase (p : BitVec 1) : BitVec 1 := p ^^^ 1#1

/-- `STATUS` after success: `OK` (10_state.md rule R25). -/
def statusOk : BitVec 8 := 0

end Sys2Proof.Machine
end

