-- ==== Sys2Proof/Machine/Filter.lean ====
section
/-! DEFINITION. biquad_iir_filter: BQ.INIT, BQ.PROCESS, and a line through a filter (41_biquad_filter.md). -/

namespace Sys2Proof.Machine

variable {α : Type}

/-- `k = tan(PI * fc)` (rule R141). -/
def bqPrewarp (N : NumFormat α) (fc : α) : α := N.tan (N.mul N.pi fc)

/-- `k*k*norm` with `norm = 1 / (1 + k/q + k*k)`, and the other coefficients of rule R141, from `k`. -/
def bqCoefficients (N : NumFormat α) (k : α) : Biquad α :=
  let q := qFactor N
  let kk := N.mul k k
  let norm := N.div (numOne N) (N.add (N.add (numOne N) (N.div k q)) kk)
  let kkn := N.mul kk norm
  { a0 := kkn
    a1 := N.mul (numTwo N) kkn
    a2 := kkn
    b1 := N.mul (N.mul (numTwo N) (N.sub kk (numOne N))) norm
    b2 := N.mul (N.add (N.sub (numOne N) (N.div k q)) kk) norm
    z1 := numZero N
    z2 := numZero N }

/-- BQ.INIT(F, fc): the filter's registers after it (rule R141). -/
def bqInit (N : NumFormat α) (fc : α) : Biquad α := bqCoefficients N (bqPrewarp N fc)

/-- BQ.PROCESS(F, x): the output and the filter after it, the transposed direct form II of rule R145. -/
def bqProcess (N : NumFormat α) (F : Biquad α) (x : α) : α × Biquad α :=
  let y := N.add (N.mul x F.a0) F.z1
  (y, { F with
        z1 := N.sub (N.add (N.mul x F.a1) F.z2) (N.mul F.b1 y)
        z2 := N.sub (N.mul x F.a2) (N.mul F.b2 y) })

/-- BQ.PROCESS on each input in order: the outputs and the filter after the last (rule R147). -/
def bqRun (N : NumFormat α) : Biquad α → List α → List α × Biquad α
  | F, [] => ([], F)
  | F, x :: xs =>
    let first := bqProcess N F x
    let rest := bqRun N first.2 xs
    (first.1 :: rest.1, rest.2)

/-- One line through a filter: the first `SHIFT` inputs prime it and their outputs are discarded, the rest of the line
gives the first outputs, and `SHIFT` zero inputs drain the last ones (43_modulator.md rules R182 to R184,
44_demodulator.md rules R203, R204). -/
def filterLine (N : NumFormat α) (F : Biquad α) (inputs : List α) : List α × Biquad α :=
  let primed := bqRun N F (inputs.take shift)
  let main := bqRun N primed.2 (inputs.drop shift)
  let drained := bqRun N main.2 (List.replicate shift (numZero N))
  (main.1 ++ drained.1, drained.2)

end Sys2Proof.Machine
end

