-- ==== Sys2Proof/Machine/Finite.lean ====
section
/-! DEFINITION. The finiteness of everything a command computes (00_scope.md rule R10): the same computations over numbers
that remember whether each value behind them was finite. -/

namespace Sys2Proof.Machine

variable {α : Type}

/-- A value, and whether it and every value it was computed from are finite. -/
structure Tracked (α : Type) where
  value : α
  finite : Bool
deriving DecidableEq, Repr

/-- A value that a command reads. -/
def track (N : NumFormat α) (x : α) : Tracked α := ⟨x, N.finite x⟩

/-- The result `v` of an operation whose operands are finite or not as `b` says. -/
def trackResult (N : NumFormat α) (v : α) (b : Bool) : Tracked α := ⟨v, b && N.finite v⟩

/-- The format that computes as `N` does and remembers finiteness. Comparisons look at the values only
(45_harmonic_canceller.md rule R235). -/
def trackFormat (N : NumFormat α) : NumFormat (Tracked α) where
  add x y := trackResult N (N.add x.value y.value) (x.finite && y.finite)
  sub x y := trackResult N (N.sub x.value y.value) (x.finite && y.finite)
  mul x y := trackResult N (N.mul x.value y.value) (x.finite && y.finite)
  div x y := trackResult N (N.div x.value y.value) (x.finite && y.finite)
  sin x := trackResult N (N.sin x.value) x.finite
  cos x := trackResult N (N.cos x.value) x.finite
  tan x := trackResult N (N.tan x.value) x.finite
  le x y := N.le x.value y.value
  lt x y := N.lt x.value y.value
  decimal m e := track N (N.decimal m e)
  pi := track N N.pi
  finite x := x.finite

/-- The registers of a filter that a command finds. -/
def trackBiquad (N : NumFormat α) (F : Biquad α) : Biquad (Tracked α) :=
  ⟨track N F.a0, track N F.a1, track N F.a2, track N F.b1, track N F.b2, track N F.z1, track N F.z2⟩

/-- A component of an estimator answer. -/
def trackEstimate (N : NumFormat α) (e : Estimate α) : Estimate (Tracked α) :=
  ⟨track N e.frequency, track N e.magnitude, track N e.phase⟩

/-- Every number of the list is finite. -/
def listFinite (l : List (Tracked α)) : Bool := l.all (·.finite)

/-- Every register of the filter is finite. -/
def biquadFinite (F : Biquad (Tracked α)) : Bool := listFinite [F.a0, F.a1, F.a2, F.b1, F.b2, F.z1, F.z2]

/-- The outcome of a command whose values are all finite or not as `ok` says: with one that is not, the command is outside
the spec (00_scope.md rule R10, 93_implementation_defined.md U3). Log 2. -/
def requireFinite (ok : Bool) (r : Except Fault State) : Host.Outcome State Fault Refusal :=
  if ok then outcomeOf r else .refused .nonFiniteValue

end Sys2Proof.Machine
end

