-- ==== Sys2Proof/Machine/Carrier.lean ====
section
/-! DEFINITION. quadrature_carrier_gen: the carrier frequency, CGEN.FILL and CGEN.WINDOW (40_carrier_generator.md). -/

namespace Sys2Proof.Machine

variable {α : Type}

/-- The carrier frequency `f(w) = floor(50·w / 73) | 1` (rule R120), an integer computation. -/
def carrierFreq (w : Nat) : Nat := (50 * w / 73) ||| 1

/-- The angle of table element `i`, formed as `(f·i/w)·π` (rule R121). Log 3. -/
def carrierAngle (N : NumFormat α) (w i : Nat) : α :=
  N.mul (N.div (numOfNat N (carrierFreq w * i)) (numOfNat N w)) N.pi

/-- `SIN` as CGEN.FILL leaves it (rule R121). -/
def cgenSin (N : NumFormat α) (w : Nat) : Buffer α := bufTabulate (2 * w) fun i => N.sin (carrierAngle N w i)

/-- `COS` as CGEN.FILL leaves it (rule R121). -/
def cgenCos (N : NumFormat α) (w : Nat) : Buffer α := bufTabulate (2 * w) fun i => N.cos (carrierAngle N w i)

/-- CGEN.WINDOW on one table: the `w` elements from index `PHASE·w` on (rule R123). -/
def cgenWindow (name : BufferName) (table : Buffer α) (phase : BitVec 1) (w : Nat) : Except Fault (List α) :=
  collect (memRead (2 * w) name table) (phase.toNat * w) w

end Sys2Proof.Machine
end

