-- ==== Sys2Proof/Machine/Operands.lean ====
section
/-! DEFINITION. The operand forms: the scanline a command reads from `LINE_IN` and the one it leaves in `LINE_OUT`
(20_memory.md rule R64, rule R65), the carrier windows and the whole-line reads and writes of the context's buffers. -/

namespace Sys2Proof.Machine

/-- The value `w` of `WIDTH` (10_state.md rule R22). -/
def lineWidth (s : State) : Nat := s.width.toNat

/-- The number of elements of `LINE_IN` and of `LINE_OUT` (10_state.md rule R33). -/
def lineCapacity (P : Params Number) : Nat := 3 * P.widthMax

/-- `LINE_IN[i]`. -/
def readLineIn (P : Params Number) (s : State) (i : Nat) : Except Fault Number :=
  memRead (lineCapacity P) .lineIn s.lineIn i

/-- Pixel `i` of an ENCODE line: red, green, blue at `3i`, `3i+1`, `3i+2` (20_memory.md rule R64). -/
def readPixel (P : Params Number) (s : State) (i : Nat) : Except Fault (Number × Number × Number) := do
  let r ← readLineIn P s (3 * i)
  let g ← readLineIn P s (3 * i + 1)
  let b ← readLineIn P s (3 * i + 2)
  .ok (r, g, b)

/-- The `w` pixels of an ENCODE line. -/
def readPixels (P : Params Number) (s : State) : Except Fault (List (Number × Number × Number)) :=
  collect (readPixel P s) 0 (lineWidth s)

/-- The `w` composite samples of a DECODE line (20_memory.md rule R64). -/
def readSamples (P : Params Number) (s : State) : Except Fault (List Number) :=
  collect (readLineIn P s) 0 (lineWidth s)

/-- The whole of one history buffer. -/
def readHistory (name : BufferName) (b : Buffer Number) (s : State) : Except Fault (List Number) :=
  collect (memRead (lineWidth s) name b) 0 (lineWidth s)

/-- CGEN.WINDOW: the sine and cosine windows of a line (40_carrier_generator.md rule R123). -/
def readWindows (s : State) : Except Fault (List Number × List Number) := do
  let sw ← cgenWindow .sin s.sin s.phase (lineWidth s)
  let cw ← cgenWindow .cos s.cos s.phase (lineWidth s)
  .ok (sw, cw)

/-- Pixel triples as they lie in a line buffer (20_memory.md rule R65). -/
def interleave : List (Number × Number × Number) → List Number
  | [] => []
  | (r, g, b) :: rest => r :: g :: b :: interleave rest

/-- `LINE_OUT` with a line written from element 0 on; the elements beyond keep their contents (20_memory.md rule R65). -/
def writeLineOut (P : Params Number) (s : State) (vs : List Number) : Except Fault (Buffer Number) :=
  memWriteAll (lineCapacity P) .lineOut s.lineOut 0 vs

/-- A line of at least `SHIFT` samples: priming reads element `SHIFT − 1` of it. Every width a context can have passes
(10_state.md rule R22, 20_memory.md rule R62). -/
def requireShift (name : BufferName) (s : State) : Except Fault Unit :=
  if lineWidth s < shift then .error (.indexOutOfRange name (shift - 1)) else .ok ()

end Sys2Proof.Machine
end

