-- ==== Sys2Proof/Machine/Context.lean ====
section
/-! DEFINITION. The context commands CREATE and DESTROY (46_context_commands.md). -/

namespace Sys2Proof.Machine

/-- The state writes of a CREATE that passes every check (rule R260). `CB`, `LINE_IN` and `LINE_OUT` are not written. -/
def createContext (P : Params Number) (width : Nat) (h : BitVec 1) (s : State) : State :=
  { s with
    width := BitVec.ofNat 16 width
    hmode := h
    phase := 0
    sin := cgenSin P.num width
    cos := cgenCos P.num width
    fi := bqInit P.num (fcI P.num)
    fq := bqInit P.num (fcQ P.num)
    pl := bufTabulate width P.histResetL
    pc := bufTabulate width P.histResetC
    ctxValid := 1
    status := statusOk }

/-- Every value that CREATE of this width computes is finite: the two tables and the two filters. -/
def createFinite (N : NumFormat Number) (width : Nat) : Bool :=
  let T := trackFormat N
  listFinite ((cgenSin T width).map Prod.snd) && listFinite ((cgenCos T width).map Prod.snd) &&
    biquadFinite (bqInit T (fcI T)) && biquadFinite (bqInit T (fcQ T))

/-- CREATE with the open parameters `P` (rule R260), its checks in the order of 60_exceptions.md rule R295. -/
def createWith (P : Params Number) (width : Nat) (h : BitVec 1) (s : State) : Host.Outcome State Fault Refusal :=
  if s.ctxValid = 1 then .next (raiseError .contract s)
  else if widthLimit ≤ width then .next (raiseError .createWidth s)
  else if width < 3 then .refused (.widthBelowThree width)
  else if P.widthMax < width then .next (raiseError .createStorage s)
  else requireFinite (createFinite P.num width) (.ok (createContext P width h s))

/-- The state writes of DESTROY (rule R263). The context's registers become free values and no element of its buffers
holds a value any more; the line buffers stay. Log 7. -/
def destroyContext (s : State) : State :=
  { s with
    ctxValid := 0
    status := statusOk
    width := Config.freeWidth s.freeCount
    hmode := Config.freeBit s.freeCount 0
    phase := Config.freeBit s.freeCount 1
    fi := freeBiquad s.freeCount 0
    fq := freeBiquad s.freeCount 7
    sin := []
    cos := []
    cb := []
    pl := []
    pc := []
    freeCount := s.freeCount + 1 }

end Sys2Proof.Machine
end

