-- ==== Sys2Proof/Machine/Canceller.lean ====
section
/-! DEFINITION. harmonic_residual_canceller: HRC.CANCEL (45_harmonic_canceller.md). -/

namespace Sys2Proof.Machine

variable {α : Type}

/-- `lo_b`, the first local index of block `b`'s write region (rule R232). -/
def blockLow (b : Nat) : Nat := if b = 0 then 0 else 4

/-- Block `b` is processed: its write region contains a position below `w` (rule R232). -/
def blockInLine (w b : Nat) : Bool := decide (hop * b + blockLow b < w)

/-- `NB(w)`, the number of blocks of a line (rule R232). -/
def blockCount (w : Nat) : Nat := if w ≤ 12 then 1 else 1 + (w - 5) / 8

/-- The window of block `b` over the analysis line, zero-padded past the line end (rule R233). -/
def hrcWindow (N : NumFormat α) (xs : List α) (b : Nat) : List α :=
  (List.range windowLength).map fun n => xs.getD (hop * b + n) (numZero N)

/-- The query of block `b` (rule R234). -/
def hrcQuery (N : NumFormat α) (xs : List α) (b : Nat) : Query α := ⟨hrcWindow N xs b, kEst⟩

/-- The first component of an answer whose frequency lies in the band `[2.0, 2.3)` (rule R235). -/
def hrcSelect (N : NumFormat α) (res : List (Estimate α)) : Option (Estimate α) :=
  res.find? fun e => N.le (bandLo N) e.frequency && N.lt e.frequency (bandHi N)

/-- `mg * sin(fr * n + ph)` (rule R236). -/
def hrcSinusoid (N : NumFormat α) (e : Estimate α) (n : Nat) : α :=
  N.mul e.magnitude (N.sin (N.add (N.mul e.frequency (numOfNat N n)) e.phase))

/-- The subtraction of block `b` from the luma line: at each position of its write region that the line has (rule R236);
nothing when no component was selected (rule R237). -/
def hrcSubtract (N : NumFormat α) (b : Nat) (sel : Option (Estimate α)) (ls : List α) : List α :=
  match sel with
  | none => ls
  | some e => ls.mapIdx fun p v =>
      if hop * b + blockLow b ≤ p ∧ p < hop * b + 12 then N.sub v (hrcSinusoid N e (p - hop * b)) else v

/-- What block `b` does with the answer it gets: only the first `K_EST` triples count (rule R231). -/
def hrcBlock (N : NumFormat α) (b : Nat) (answer : List (Estimate α)) (ls : List α) : List α :=
  hrcSubtract N b (hrcSelect N (answer.take kEst)) ls

/-- How a run of the canceller stands when it stops: finished with the corrected line, or waiting for the answer to the
query of block `b`. Both with the answers not used and the queries sent. -/
inductive CancelResult (α : Type) where
  | done (ls : List α) (answers : List (List (Estimate α))) (sent : List (Query α))
  | waiting (b : Nat) (ls : List α) (sent : List (Query α))
deriving DecidableEq, Repr

/-- HRC.CANCEL from block `b` on (rule R238): each processed block sends its query and takes the next answer; with no
answer left it waits (70_reset_and_hazards.md rule R341). The first argument bounds the blocks. -/
def hrcLoop (N : NumFormat α) (w : Nat) (xs : List α) :
    Nat → Nat → List α → List (List (Estimate α)) → List (Query α) → CancelResult α
  | 0, _, ls, answers, sent => .done ls answers sent
  | fuel + 1, b, ls, answers, sent =>
    if blockInLine w b then
      match answers with
      | [] => .waiting b ls (sent ++ [hrcQuery N xs b])
      | a :: rest => hrcLoop N w xs fuel (b + 1) (hrcBlock N b a ls) rest (sent ++ [hrcQuery N xs b])
    else .done ls answers sent

/-- HRC.CANCEL(LS, XS) with the answers the estimator will give. A line of `w` samples has at most `w` blocks. -/
def hrcCancel (N : NumFormat α) (w : Nat) (ls xs : List α) (answers : List (List (Estimate α))) : CancelResult α :=
  hrcLoop N w xs (w + 1) 0 ls answers []

end Sys2Proof.Machine
end

