-- ==== Sys2Proof/Machine/Color.lean ====
section
/-! DEFINITION. rgb_to_yiq_matrix: CT.LUMA, CT.CHROMA, CT.TORGB (42_color_transform.md). No clamping (rule R163). -/

namespace Sys2Proof.Machine

variable {α : Type}

/-- CT.LUMA: `0.30*R + 0.59*G + 0.11*B` (rule R160). -/
def ctLuma (N : NumFormat α) (p : α × α × α) : α :=
  N.add (N.add (N.mul (N.decimal 30 2) p.1) (N.mul (N.decimal 59 2) p.2.1)) (N.mul (N.decimal 11 2) p.2.2)

/-- CT.CHROMA: `(0.6*R - 0.28*G - 0.32*B, 0.21*R - 0.52*G + 0.31*B)` (rule R161). -/
def ctChroma (N : NumFormat α) (p : α × α × α) : α × α :=
  (N.sub (N.sub (N.mul (N.decimal 6 1) p.1) (N.mul (N.decimal 28 2) p.2.1)) (N.mul (N.decimal 32 2) p.2.2),
   N.add (N.sub (N.mul (N.decimal 21 2) p.1) (N.mul (N.decimal 52 2) p.2.1)) (N.mul (N.decimal 31 2) p.2.2))

/-- CT.TORGB: `(0.96*I + 0.62*Q + Y, -0.27*I - 0.65*Q + Y, -1.11*I + 1.70*Q + Y)` (rule R162). A leading minus is part of
its constant (log 3). -/
def ctToRgb (N : NumFormat α) (c : α × α) (y : α) : α × α × α :=
  (N.add (N.add (N.mul (N.decimal 96 2) c.1) (N.mul (N.decimal 62 2) c.2)) y,
   N.add (N.sub (N.mul (N.decimal (-27) 2) c.1) (N.mul (N.decimal 65 2) c.2)) y,
   N.add (N.add (N.mul (N.decimal (-111) 2) c.1) (N.mul (N.decimal 170 2) c.2)) y)

end Sys2Proof.Machine
end

