-- ==== Sys2Proof/Machine/Demodulator.lean ====
section
/-! DEFINITION. quadrature_demodulator_comb: the command DECODE (44_demodulator.md). -/

namespace Sys2Proof.Machine

variable {α : Type}

/-- `LS[i] = (x[i] + PL[i]) / 2`, plain mode (rule R201). -/
def combLuma (N : NumFormat α) (x pl : List α) : List α := List.zipWith (fun a b => N.div (N.add a b) (numTwo N)) x pl

/-- `XS[i] = (x[i] − PC[i]) / 2`, both modes (rule R201). -/
def combChroma (N : NumFormat α) (x pc : List α) : List α := List.zipWith (fun a b => N.div (N.sub a b) (numTwo N)) x pc

/-- What the demodulation and reconstruction of one DECODE compute. -/
structure DecodedLine (α : Type) where
  /-- `CB` (rule R204) -/
  chroma : List (α × α)
  fi : Biquad α
  fq : Biquad α
  /-- the recovered pixels (rule R205) -/
  pixels : List (α × α × α)
deriving DecidableEq, Repr

/-- Demodulation of `XS` and reconstruction with `LS` (rules R203 to R205): the carrier multiplies the filter inputs. -/
def decodeLine (N : NumFormat α) (fi fq : Biquad α) (sw cw ls xs : List α) : DecodedLine α :=
  let us := filterLine N fi (List.zipWith N.mul xs sw)
  let vs := filterLine N fq (List.zipWith N.mul xs cw)
  let chroma := List.zipWith (fun u v => (N.mul (demodGain N) u, N.mul (demodGain N) v)) us.1 vs.1
  { chroma := chroma
    fi := us.2
    fq := vs.2
    pixels := List.zipWith (ctToRgb N) chroma ls }

/-- DECODE after the separation and the cancellation (rule R209): demodulation, reconstruction, the histories set to the
raw input line, `PHASE` and `STATUS`. -/
def decodeFinish (P : Params Number) (s : State) (ls xs : List Number) : Except Fault State := do
  let (sw, cw) ← readWindows s
  let x ← readSamples P s
  requireShift .lineIn s
  let line := decodeLine P.num s.fi s.fq sw cw ls xs
  let cb ← memWriteAll (lineWidth s) .cb s.cb 0 line.chroma
  let out ← writeLineOut P s (interleave line.pixels)
  let pl ← memWriteAll (lineWidth s) .pl s.pl 0 x
  let pc ← memWriteAll (lineWidth s) .pc s.pc 0 x
  .ok { s with
    cb := cb
    fi := line.fi
    fq := line.fq
    lineOut := out
    pl := pl
    pc := pc
    phase := togglePhase s.phase
    status := statusOk }

/-- DECODE when the canceller stops: it goes on to the demodulation, or waits for an answer with one query outstanding
(70_reset_and_hazards.md rule R341) and nothing written. -/
def decodeAfterCancel (P : Params Number) (s : State) (xs : List Number) : CancelResult Number → Except Fault State
  | .done ls answers sent =>
    decodeFinish P { s with estAnswers := answers, estQueries := s.estQueries ++ sent, waiting := none } ls xs
  | .waiting b ls sent =>
    .ok { s with estAnswers := [], estQueries := s.estQueries ++ sent, waiting := some ⟨b, ls, xs⟩ }

/-- DECODE on a valid context (rule R209): separation, then the mode's path. `PL` is read in plain mode only (rule R201). -/
def decodeContext (P : Params Number) (s : State) : Except Fault State := do
  let x ← readSamples P s
  let pc ← readHistory .pc s.pc s
  let xs := combChroma P.num x pc
  if s.hmode = 0 then
    let pl ← readHistory .pl s.pl s
    decodeFinish P s (combLuma P.num x pl) xs
  else
    decodeAfterCancel P s xs (hrcCancel P.num (lineWidth s) x xs s.estAnswers)

/-- A waiting DECODE receives the answer to its outstanding query and goes on with the next block
(70_reset_and_hazards.md rule R345). `answers` are those that follow. -/
def decodeResume (P : Params Number) (s : State) (d : Waiting) (answer : List (Estimate Number))
    (answers : List (List (Estimate Number))) : Except Fault State :=
  decodeAfterCancel P s d.xs
    (hrcLoop P.num (lineWidth s) d.xs (lineWidth s + 1) (d.block + 1) (hrcBlock P.num d.block answer d.ls) answers [])

/-! ### Finiteness (00_scope.md rule R10) -/

/-- Every value of a decoded line is finite. -/
def decodedLineFinite (line : DecodedLine (Tracked α)) : Bool :=
  listFinite (line.chroma.map Prod.fst) && listFinite (line.chroma.map Prod.snd) && biquadFinite line.fi &&
    biquadFinite line.fq && line.pixels.all fun p => listFinite [p.1, p.2.1, p.2.2]

/-- Every value of the demodulation and reconstruction is finite. (Where a read has no value, DECODE faults.) -/
def finishFinite (P : Params Number) (s : State) (ls xs : List (Tracked Number)) : Bool :=
  match readWindows s with
  | .ok (sw, cw) =>
    decodedLineFinite (decodeLine (trackFormat P.num) (trackBiquad P.num s.fi) (trackBiquad P.num s.fq)
      (sw.map (track P.num)) (cw.map (track P.num)) ls xs)
  | .error _ => true

/-- Every value of a DECODE up to the point where the canceller stops, and to its end when it is finished, is finite. Of
the estimator's answers only the selected components count. -/
def cancelFinite (P : Params Number) (s : State) (xs : List (Tracked Number)) : CancelResult (Tracked Number) → Bool
  | .done ls _ _ => finishFinite P s ls xs
  | .waiting _ ls _ => listFinite ls && listFinite xs

/-- Every value that DECODE on a valid context reads and computes is finite. (Where a read has no value, DECODE faults.) -/
def decodeFinite (P : Params Number) (s : State) : Bool :=
  let T := trackFormat P.num
  match readSamples P s, readHistory .pc s.pc s with
  | .ok x, .ok pc =>
    let xs := combChroma T (x.map (track P.num)) (pc.map (track P.num))
    if s.hmode = 0 then
      match readHistory .pl s.pl s with
      | .ok pl => finishFinite P s (combLuma T (x.map (track P.num)) (pl.map (track P.num))) xs
      | .error _ => true
    else
      cancelFinite P s xs (hrcCancel T (lineWidth s) (x.map (track P.num)) xs
        (s.estAnswers.map (List.map (trackEstimate P.num))))
  | _, _ => true

/-- Every value that a waiting DECODE reads and computes when it goes on is finite. -/
def resumeFinite (P : Params Number) (s : State) (d : Waiting) (answer : List (Estimate Number))
    (answers : List (List (Estimate Number))) : Bool :=
  let T := trackFormat P.num
  let xs := d.xs.map (track P.num)
  cancelFinite P s xs (hrcLoop T (lineWidth s) xs (lineWidth s + 1) (d.block + 1)
    (hrcBlock T d.block (answer.map (trackEstimate P.num)) (d.ls.map (track P.num)))
    (answers.map (List.map (trackEstimate P.num))) [])

/-- DECODE with the open parameters `P` (rule R200). -/
def decodeWith (P : Params Number) (s : State) : Host.Outcome State Fault Refusal :=
  if s.ctxValid = 0 then .next (raiseError .contract s)
  else requireFinite (decodeFinite P s) (decodeContext P s)

end Sys2Proof.Machine
end

