-- ==== Sys2Proof/Machine/Modulator.lean ====
section
/-! DEFINITION. quadrature_modulator: the command ENCODE (43_modulator.md). -/

namespace Sys2Proof.Machine

variable {α : Type}

/-- `u * S[j] + v * C[j]` along a line (rule R183, rule R184). -/
def carrierSum (N : NumFormat α) (us vs sw cw : List α) : List α :=
  List.zipWith N.add (List.zipWith N.mul us sw) (List.zipWith N.mul vs cw)

/-- What one ENCODE computes. -/
structure EncodedLine (α : Type) where
  /-- `CB` (rule R181) -/
  chroma : List (α × α)
  fi : Biquad α
  fq : Biquad α
  /-- `out`, the composite line (rule R185) -/
  out : List α
deriving DecidableEq, Repr

/-- Steps 1 to 5 of ENCODE over a line of pixels and its carrier windows (rules R181 to R185). -/
def encodeLine (N : NumFormat α) (fi fq : Biquad α) (sw cw : List α) (pixels : List (α × α × α)) : EncodedLine α :=
  let chroma := pixels.map (ctChroma N)
  let us := filterLine N fi (chroma.map Prod.fst)
  let vs := filterLine N fq (chroma.map Prod.snd)
  { chroma := chroma
    fi := us.2
    fq := vs.2
    out := List.zipWith N.add (carrierSum N us.1 vs.1 sw cw) (pixels.map (ctLuma N)) }

/-- ENCODE on a valid context (rule R188): the line is read, computed, and `CB`, the filters, `LINE_OUT`, `PHASE` and
`STATUS` are written. -/
def encodeContext (P : Params Number) (s : State) : Except Fault State := do
  let (sw, cw) ← readWindows s
  let pixels ← readPixels P s
  requireShift .cb s
  let line := encodeLine P.num s.fi s.fq sw cw pixels
  let cb ← memWriteAll (lineWidth s) .cb s.cb 0 line.chroma
  let out ← writeLineOut P s line.out
  .ok { s with
    cb := cb
    fi := line.fi
    fq := line.fq
    lineOut := out
    phase := togglePhase s.phase
    status := statusOk }

/-- Every value of an encoded line is finite. No value is computed that does not reach one of these: what a filter takes in
stays in its state. -/
def encodedLineFinite (line : EncodedLine (Tracked α)) : Bool :=
  listFinite (line.chroma.map Prod.fst) && listFinite (line.chroma.map Prod.snd) && biquadFinite line.fi &&
    biquadFinite line.fq && listFinite line.out

/-- A pixel that a command reads. -/
def trackPixel (N : NumFormat α) (p : α × α × α) : Tracked α × Tracked α × Tracked α :=
  (track N p.1, track N p.2.1, track N p.2.2)

/-- Every value that ENCODE on a valid context reads and computes is finite. (Where a read has no value, ENCODE faults.) -/
def encodeFinite (P : Params Number) (s : State) : Bool :=
  match readWindows s, readPixels P s with
  | .ok (sw, cw), .ok pixels =>
    encodedLineFinite (encodeLine (trackFormat P.num) (trackBiquad P.num s.fi) (trackBiquad P.num s.fq)
      (sw.map (track P.num)) (cw.map (track P.num)) (pixels.map (trackPixel P.num)))
  | _, _ => true

/-- ENCODE with the open parameters `P` (rule R180). -/
def encodeWith (P : Params Number) (s : State) : Host.Outcome State Fault Refusal :=
  if s.ctxValid = 0 then .next (raiseError .contract s)
  else requireFinite (encodeFinite P s) (encodeContext P s)

end Sys2Proof.Machine
end

