-- ==== Sys2Proof/WellFormed.lean ====
section
/-! DEFINITION. Which instructions a command word can express. -/

namespace Sys2Proof

/-- The operand bounds of 30_encoding.md rule R92: `width` is a 24-bit unsigned field. The other fields fit by their
types, and format Z has no operand. -/
def Instr.wellFormed : Instr → Bool
  | .create width _ => decide (width < 2 ^ 24)
  | .encode => true
  | .decode => true
  | .destroy => true

end Sys2Proof
end

