-- ==== Sys2Proof/Decode.lean ====
section
/-! DEFINITION. The command decoder of 30_encoding.md, total on all 2^32 words, and the encoder beside it. -/

namespace Sys2Proof

/-- Why a word is a reserved encoding (30_encoding.md rule R94). All three raise the same error (60_exceptions.md rule
R293); the names say which field made the word reserved. -/
inductive Reserved where
  /-- `op` is `0x0` or `0x5 .. 0xF` -/
  | op
  /-- format C with `zero3` not zero -/
  | zero3
  /-- format Z with `zero28` not zero -/
  | zero28
deriving DecidableEq, Repr

/-- `op = bits[31:28]` (30_encoding.md rule R90). -/
def opField (c : CommandWord) : BitVec 4 := c.extractLsb' 28 4

/-- `zero3 = bits[27:25]` of format C (30_encoding.md rule R91). -/
def zero3Field (c : CommandWord) : BitVec 3 := c.extractLsb' 25 3

/-- `h = bits[24]` of format C (30_encoding.md rule R91, rule R92). -/
def hField (c : CommandWord) : BitVec 1 := c.extractLsb' 24 1

/-- `width = zext(bits[23:0])` of format C (30_encoding.md rule R91, rule R92). -/
def widthField (c : CommandWord) : Nat := (c.extractLsb' 0 24).toNat

/-- `zero28 = bits[27:0]` of format Z (30_encoding.md rule R91). -/
def zero28Field (c : CommandWord) : BitVec 28 := c.extractLsb' 0 28

/-- A format Z command: its one word, or reserved when `zero28` is not zero (30_encoding.md rule R91, rule R94). -/
def decodeZ (i : Instr) (c : CommandWord) : Except Reserved Instr :=
  if zero28Field c = 0 then .ok i else .error .zero28

/-- The decoder: `op` selects the command, the format's zero field must be zero (30_encoding.md rules R90 to R95). -/
def decode (c : CommandWord) : Except Reserved Instr :=
  if opField c = 0x1#4 then
    if zero3Field c = 0 then .ok (.create (widthField c) (hField c)) else .error .zero3
  else if opField c = 0x2#4 then decodeZ .encode c
  else if opField c = 0x3#4 then decodeZ .decode c
  else if opField c = 0x4#4 then decodeZ .destroy c
  else .error .op

/-- The word of an instruction, field by field from the formats of 30_encoding.md rule R91 and the opcodes of rule R93.
An operand the field cannot hold (not well-formed) loses its high bits. -/
def encode : Instr → CommandWord
  | .create width h => 0x1#4 ++ 0#3 ++ h ++ BitVec.ofNat 24 width
  | .encode => 0x2#4 ++ 0#28
  | .decode => 0x3#4 ++ 0#28
  | .destroy => 0x4#4 ++ 0#28

/-- The instruction the decoder reads from the word `w` of a table row of `nbits` bits. A command is one whole 32-bit
word with no byte order of its own (20_memory.md rule R66, rule R67), so the table's numbering is the word's; bits above
`nbits` are 0, and more than 32 bits are no command. -/
def decodeTableWord (nbits w : Nat) : Option Instr :=
  if nbits ≤ 32 then
    match decode (BitVec.ofNat 32 (w % 2 ^ nbits)) with
    | .ok i => some i
    | .error _ => none
  else none

end Sys2Proof
end

