-- ==== Sys2Proof/Machine/Moves.lean ====
section
/-! DEFINITION. The moves of the host and of the estimator (70_reset_and_hazards.md rule R345), with the open parameters `P`
and the execution `run` of a command as arguments. -/

namespace Sys2Proof.Machine

/-- The complete execution of one command. -/
abbrev Execution := Instr → State → Host.Outcome State Fault Refusal

/-- The command word `c` on an idle engine: the command it decodes to, or ERR_ILLEGAL (30_encoding.md rule R94, rule
R95). -/
def issueCommand (run : Execution) (c : CommandWord) (s : State) : Host.Outcome State Fault Refusal :=
  match decode c with
  | .ok i => run i s
  | .error _ => .next (raiseError .illegal s)

/-- The host writes `LINE_IN[k]` (rule R345). -/
def hostWriteLineIn (P : Params Number) (k : Nat) (v : Number) (s : State) : Host.Outcome State Fault Refusal :=
  if k < lineCapacity P then .next { s with lineIn := bufPut s.lineIn k v }
  else .refused (.noSuchLineElement k)

/-- What `LINE_OUT[k]` reads as: the element, or a free value where nothing has written it since the last reset. The same
value until a write or a reset (20_memory.md rule R61). Log 8. -/
def lineOutValue (s : State) (k : Nat) : Number := (bufGet s.lineOut k).getD (Config.freeLineOut s.resetCount k)

/-- The host reads `LINE_OUT[k]` (rule R345); the read has no side effect on the engine (20_memory.md rule R61). -/
def hostReadLineOut (P : Params Number) (k : Nat) (s : State) : Host.Outcome State Fault Refusal :=
  if k < lineCapacity P then
    .next { s with hostReads := .lineOut k (lineOutValue s k) :: s.hostReads }
  else .refused (.noSuchLineElement k)

/-- The value of control register `n` (10_state.md rule R38), zero-extended. While there is no context registers 2, 3 and 4
read as free values, drawn with the counter (log 8). `none`: there is no such register. -/
def controlValue (n : Nat) (s : State) : Option (BitVec 32) :=
  match n with
  | 0 => some (s.status.setWidth 32)
  | 1 => some (s.ctxValid.setWidth 32)
  | 2 => some ((if s.ctxValid = 0 then Config.freeWidth s.freeCount else s.width).setWidth 32)
  | 3 => some ((if s.ctxValid = 0 then Config.freeBit s.freeCount 0 else s.hmode).setWidth 32)
  | 4 => some ((if s.ctxValid = 0 then Config.freeBit s.freeCount 1 else s.phase).setWidth 32)
  | _ => none

/-- The host reads control register `n` (10_state.md rule R38). -/
def hostReadControl (n : Nat) (s : State) : Host.Outcome State Fault Refusal :=
  match controlValue n s with
  | some v => .next { s with hostReads := .control n v :: s.hostReads, freeCount := s.freeCount + 1 }
  | none => .refused (.noSuchControlRegister n)

/-- One move of the host on an idle engine (rule R345). -/
def hostMove (P : Params Number) (run : Execution) (m : HostMove) (s : State) :
    Host.Outcome State Fault Refusal :=
  match m with
  | .reset => .next (hardReset s)
  | .command c => issueCommand run c s
  | .writeLineIn k v => hostWriteLineIn P k v s
  | .readLineOut k => hostReadLineOut P k s
  | .readControl n => hostReadControl n s

/-- A step of the idle engine: the host's next move, or nothing when the host makes none. Log 9. -/
def idleStep (P : Params Number) (run : Execution) (s : State) : Host.Outcome State Fault Refusal :=
  match s.hostMoves with
  | [] => .next s
  | m :: rest => hostMove P run m { s with hostMoves := rest }

/-- A step while a DECODE waits for an answer (70_reset_and_hazards.md rule R341, rule R345): a reset of the host abandons
it; else the estimator's next answer resumes it; else no step is enabled. The host's other moves stay pending (20_memory.md
rule R69). Log 10, log 12. -/
def waitingStep (P : Params Number) (d : Waiting) (s : State) : Host.Outcome State Fault Refusal :=
  match s.hostMoves with
  | .reset :: rest => .next (hardReset { s with hostMoves := rest })
  | _ =>
    match s.estAnswers with
    | [] => .fault .estimatorNeverAnswers
    | answer :: answers => requireFinite (resumeFinite P s d answer answers) (decodeResume P s d answer answers)

/-- One step of an engine with the open parameters `P` whose commands `run` executes. -/
def stepWith (P : Params Number) (run : Execution) (s : State) : Host.Outcome State Fault Refusal :=
  match s.waiting with
  | none => idleStep P run s
  | some d => waitingStep P d s

/-- `s` with the command word `c` as the host's next move, on an idle engine. -/
def withCommand (s : State) (c : CommandWord) : State :=
  { s with hostMoves := .command c :: s.hostMoves, waiting := none }

end Sys2Proof.Machine
end

