-- ==== Sys2Proof/Machine/Engine.lean ====
section
/-! DEFINITION. The engine for every value of the open parameters (00_scope.md rule R9), and the four commands with this
engine's. -/

namespace Sys2Proof.Machine

/-- DESTROY (46_context_commands.md rule R263). -/
def execDestroy (s : State) : Host.Outcome State Fault Refusal :=
  if s.ctxValid = 0 then .next (raiseError .contract s) else .next (destroyContext s)

/-- The complete execution of one command by an engine with the open parameters `P`. -/
def execWith (P : Params Number) (i : Instr) (s : State) : Host.Outcome State Fault Refusal :=
  match i with
  | .create width h => createWith P width h s
  | .encode => encodeWith P s
  | .decode => decodeWith P s
  | .destroy => execDestroy s

/-- One step of an engine with the open parameters `P`. -/
def engineStep (P : Params Number) (s : State) : Host.Outcome State Fault Refusal := stepWith P (execWith P) s

/-- CREATE (46_context_commands.md rule R260). -/
def execCreate (width : Nat) (h : BitVec 1) (s : State) : Host.Outcome State Fault Refusal :=
  createWith Config.params width h s

/-- ENCODE (43_modulator.md rule R180). -/
def execEncode (s : State) : Host.Outcome State Fault Refusal := encodeWith Config.params s

/-- DECODE (44_demodulator.md rule R200). -/
def execDecode (s : State) : Host.Outcome State Fault Refusal := decodeWith Config.params s

end Sys2Proof.Machine
end

