-- ==== Sys2Proof/Machine/Dispatch.lean ====
section
/-! DEFINITION. One arm per command. -/

namespace Sys2Proof.Machine

/-- The complete execution of one command on an idle engine (00_scope.md rule R6, 30_encoding.md rule R93). -/
def exec (i : Instr) (s : State) : Host.Outcome State Fault Refusal :=
  match i with
  | .create width h => Sys2Proof.Machine.execCreate width h s
  | .encode => Sys2Proof.Machine.execEncode s
  | .decode => Sys2Proof.Machine.execDecode s
  | .destroy => Sys2Proof.Machine.execDestroy s

end Sys2Proof.Machine
end

