-- ==== Sys2Proof/Machine/Step.lean ====
section
/-! DEFINITION. The step function. -/

namespace Sys2Proof.Machine

/-- One step of the machine: one move of the host run to completion (00_scope.md rule R6), or the resumption of a DECODE
that waits for the estimator. -/
def step (s : State) : Host.Outcome State Fault Refusal := stepWith Config.params exec s

/-- `s` with the command word of an opcode-table row as the host's next move, on an idle engine: the engine fetches
nothing, the host hands each word over (10_state.md rule R26, 20_memory.md rule R72). Bits above `nbits` are 0. Log 9. -/
def State.withFetchWord (s : State) (nbits w : Nat) : State := withCommand s (BitVec.ofNat 32 (w % 2 ^ nbits))

end Sys2Proof.Machine
end

