-- ==== Sys2Proof/Safety.lean ====
section
/-! DEFINITION. What counts as a good state of the engine, and the format of the real numbers that the arithmetic rules
are equations over (00_scope.md rule R10). -/

namespace Sys2Proof.Machine

/-- The format `NUM := ℝ` of 00_scope.md rule R10. It is no part of the machine, which leaves `NUM` open: statements over
it say what the micro-operations compute where every rule holds exactly. -/
noncomputable def realFormat : NumFormat ℝ where
  add := (· + ·)
  sub := (· - ·)
  mul := (· * ·)
  div := (· / ·)
  sin := Real.sin
  cos := Real.cos
  tan := Real.tan
  le x y := decide (x ≤ y)
  lt x y := decide (x < y)
  decimal m e := (m : ℝ) / 10 ^ e
  pi := Real.pi
  finite _ := true

/-- The five coefficients of two filters are the same (the coefficients BQ.INIT writes, 41_biquad_filter.md rule R143). -/
def sameCoefficients (F G : Biquad Number) : Prop :=
  F.a0 = G.a0 ∧ F.a1 = G.a1 ∧ F.a2 = G.a2 ∧ F.b1 = G.b1 ∧ F.b2 = G.b2

/-- Every index of the buffer is below `n`. -/
def indicesBelow {α : Type} (n : Nat) (b : Buffer α) : Prop := ∀ p ∈ b, p.1 < n

/-- Every element `0 .. n-1` of the buffer holds a value. -/
def filledBelow {α : Type} (n : Nat) (b : Buffer α) : Prop := ∀ i, i < n → (bufGet b i).isSome

/-- Every number of the list is finite. -/
def numbersFinite {α : Type} (N : NumFormat α) (l : List α) : Prop := ∀ v ∈ l, N.finite v = true

/-- Every register of the filter is finite. -/
def registersFinite {α : Type} (N : NumFormat α) (F : Biquad α) : Prop :=
  numbersFinite N [F.a0, F.a1, F.a2, F.b1, F.b2, F.z1, F.z2]

/-- A DECODE in progress belongs to a line of `w` samples, waits for a block of that line, and has met finite numbers
only. -/
structure WaitingGood (N : NumFormat Number) (w : Nat) (d : Waiting) : Prop where
  ls_length : d.ls.length = w
  xs_length : d.xs.length = w
  block_in_line : blockInLine w d.block = true
  ls_finite : numbersFinite N d.ls
  xs_finite : numbersFinite N d.xs

/-- With the open parameters `P`, a live context is as CREATE made it in everything no later command may change
(10_state.md rules R22, R30, R37, 41_biquad_filter.md rule R143), its histories are whole lines (10_state.md rule R32),
and what the engine has computed is finite (00_scope.md rule R10). -/
structure ContextGood (P : Params Number) (s : State) : Prop where
  width_low : 3 ≤ lineWidth s
  width_high : lineWidth s ≤ P.widthMax
  sin_table : s.sin = cgenSin P.num (lineWidth s)
  cos_table : s.cos = cgenCos P.num (lineWidth s)
  fi_coefficients : sameCoefficients s.fi (bqInit P.num (fcI P.num))
  fq_coefficients : sameCoefficients s.fq (bqInit P.num (fcQ P.num))
  cb_bound : indicesBelow (lineWidth s) s.cb
  pl_bound : indicesBelow (lineWidth s) s.pl
  pc_bound : indicesBelow (lineWidth s) s.pc
  pl_filled : filledBelow (lineWidth s) s.pl
  pc_filled : filledBelow (lineWidth s) s.pc
  sin_finite : numbersFinite P.num (s.sin.map Prod.snd)
  cos_finite : numbersFinite P.num (s.cos.map Prod.snd)
  fi_finite : registersFinite P.num s.fi
  fq_finite : registersFinite P.num s.fq
  cb_finite : ∀ p ∈ s.cb, P.num.finite p.2.1 = true ∧ P.num.finite p.2.2 = true
  waiting_harmonic : ∀ d, s.waiting = some d → s.hmode = 1 ∧ WaitingGood P.num (lineWidth s) d ∧
    filledBelow (lineWidth s) s.lineIn

/-- With no context the context's buffers hold nothing and no command is in progress. -/
structure NoContextGood (s : State) : Prop where
  sin_empty : s.sin = []
  cos_empty : s.cos = []
  cb_empty : s.cb = []
  pl_empty : s.pl = []
  pc_empty : s.pc = []
  idle : s.waiting = none

/-- The invariant of an engine with the open parameters `P`: every buffer in canonical form and inside its address
space, `LINE_OUT` finite, `STATUS` a result code, and the context as its commands leave it. -/
structure Inv (P : Params Number) (s : State) : Prop where
  memory : Memory.wf s
  lineIn_bound : indicesBelow (lineCapacity P) s.lineIn
  lineOut_bound : indicesBelow (lineCapacity P) s.lineOut
  lineOut_finite : numbersFinite P.num (s.lineOut.map Prod.snd)
  status_code : s.status.toNat ≤ 4
  context : s.ctxValid = 1 → ContextGood P s
  no_context : s.ctxValid = 0 → NoContextGood s

/-- The fault of a line command whose input line the host has not written whole (70_reset_and_hazards.md rule R333). -/
def unwrittenInput (f : Fault) : Prop := ∃ i, f = .noValue .lineIn i

/-- A filter run over consecutive batches of inputs, the outputs joined (41_biquad_filter.md rule R147). -/
def bqRunBatches {α : Type} (N : NumFormat α) : Biquad α → List (List α) → List α × Biquad α
  | F, [] => ([], F)
  | F, xs :: batches =>
    let first := bqRun N F xs
    let rest := bqRunBatches N first.2 batches
    (first.1 ++ rest.1, rest.2)

/-- The input stream of one filter during a line: the line's samples and three zeros. Its first three outputs are the
discarded ones, so output `j` of the line is output `j + 3` of the stream (43_modulator.md rules R182 to R184). -/
def lineStream {α : Type} (N : NumFormat α) (w : Nat) (f : Nat → α) : List α :=
  (List.range w).map f ++ [N.decimal 0 0, N.decimal 0 0, N.decimal 0 0]

/-- Output `j` of a line whose filter `F` is fed the samples `f 0 .. f (w-1)` and three zeros. -/
def lineOutput {α : Type} (N : NumFormat α) (F : Biquad α) (w : Nat) (f : Nat → α) (j : Nat) : α :=
  (bqRun N F (lineStream N w f)).1.getD (j + 3) (N.decimal 0 0)

/-- `CB[i]` after a DECODE of the comb-chroma line `xs` with the carrier tables `sn`, `cs` read from index `o` on
(44_demodulator.md rule R204). -/
def demodulatedAt {α : Type} (N : NumFormat α) (fi fq : Biquad α) (w o : Nat) (xs sn cs : Nat → α) (i : Nat) : α × α :=
  (N.mul (N.decimal 2 0) (lineOutput N fi w (fun k => N.mul (xs k) (sn (o + k))) i),
   N.mul (N.decimal 2 0) (lineOutput N fq w (fun k => N.mul (xs k) (cs (o + k))) i))

/-- What the demodulation, reconstruction and history update of a DECODE leave, for the input line `x`, the luma line `ls`
and the comb-chroma line `xs` (44_demodulator.md rules R203 to R207). -/
structure DecodedFrom (N : NumFormat Number) (s t : State) (w : Nat) (x ls xs sn cs : Nat → Number) : Prop where
  fi : t.fi = (bqRun N s.fi (lineStream N w fun k => N.mul (xs k) (sn (s.phase.toNat * w + k)))).2
  fq : t.fq = (bqRun N s.fq (lineStream N w fun k => N.mul (xs k) (cs (s.phase.toNat * w + k)))).2
  cb : ∀ i, bufGet t.cb i =
    if i < w then some (demodulatedAt N s.fi s.fq w (s.phase.toNat * w) xs sn cs i) else bufGet s.cb i
  red : ∀ i, i < w → bufGet t.lineOut (3 * i) =
    some (ctToRgb N (demodulatedAt N s.fi s.fq w (s.phase.toNat * w) xs sn cs i) (ls i)).1
  green : ∀ i, i < w → bufGet t.lineOut (3 * i + 1) =
    some (ctToRgb N (demodulatedAt N s.fi s.fq w (s.phase.toNat * w) xs sn cs i) (ls i)).2.1
  blue : ∀ i, i < w → bufGet t.lineOut (3 * i + 2) =
    some (ctToRgb N (demodulatedAt N s.fi s.fq w (s.phase.toNat * w) xs sn cs i) (ls i)).2.2
  beyond : ∀ k, 3 * w ≤ k → bufGet t.lineOut k = bufGet s.lineOut k
  pl : ∀ i, bufGet t.pl i = if i < w then some (x i) else bufGet s.pl i
  pc : ∀ i, bufGet t.pc i = if i < w then some (x i) else bufGet s.pc i

/-- The block that corrects luma position `p` (45_harmonic_canceller.md rule R239). -/
def blockOf (p : Nat) : Nat := if p < 12 then 0 else (p - 4) / 8

/-- Luma position `p` after the canceller, when the estimator answers block `b` with `answer b`
(45_harmonic_canceller.md rules R235 to R237). -/
def correctedLuma (N : NumFormat Number) (answer : Nat → List (Estimate Number)) (x : Nat → Number) (p : Nat) : Number :=
  match hrcSelect N ((answer (blockOf p)).take 4) with
  | none => x p
  | some e =>
    N.sub (x p) (N.mul e.magnitude (N.sin (N.add (N.mul e.frequency (N.decimal (p - 8 * blockOf p : Nat) 0)) e.phase)))

/-- The query of block `b` of a line of `w` comb-chroma samples `xs` (45_harmonic_canceller.md rule R233, rule R234). -/
def queryOf (N : NumFormat Number) (w : Nat) (xs : Nat → Number) (b : Nat) : Query Number :=
  ⟨(List.range 16).map fun n => if 8 * b + n < w then xs (8 * b + n) else N.decimal 0 0, 4⟩

/-- With the open parameters `P`, the buffers of a live context of width `w` and an input line of `n` elements hold the
given values: what a line command reads. -/
structure LineReady (P : Params Number) (s : State) (w n : Nat) (sn cs x : Nat → Number) : Prop where
  valid : s.ctxValid = 1
  width : lineWidth s = w
  width_low : 3 ≤ w
  width_high : w ≤ P.widthMax
  sin : ∀ i, i < 2 * w → bufGet s.sin i = some (sn i)
  cos : ∀ i, i < 2 * w → bufGet s.cos i = some (cs i)
  input : ∀ i, i < n → bufGet s.lineIn i = some (x i)

end Sys2Proof.Machine
end

