-- ==== Sys2Proof/Certificates/Slice0/Obligations.lean ====
section
/-! DEFINITION. The statements about the engine, for the provers. Each names the rule of spec/ it rests on. -/

open Sys2Proof Sys2Proof.Machine

/-! ### Encoding (30_encoding.md) -/

/-- Decoding an encoded well-formed command gives it back, with every operand the encoding admits. -/
def Obligations.DecodeOfEncodeIsTheCommand : Prop :=
  ∀ i : Instr, i.wellFormed = true → decode (encode i) = .ok i

/-- A word the decoder accepts is the encoding of the well-formed command it stands for: each command has one word. -/
def Obligations.AcceptedWordIsTheEncoding : Prop :=
  ∀ (c : CommandWord) (i : Instr), decode c = .ok i → i.wellFormed = true ∧ encode i = c

/-- 30_encoding.md rule R95: the decoding procedure by match and mask, and the decoder refuses every other word. -/
def Obligations.DecodingProcedureByMatchAndMask : Prop :=
  ∀ c : CommandWord,
    if c &&& 0xFE000000#32 = 0x10000000#32 then
      decode c = .ok (.create (c.toNat % 2 ^ 24) (BitVec.ofBool (c.getLsbD 24)))
    else if c = 0x20000000#32 then decode c = .ok .encode
    else if c = 0x30000000#32 then decode c = .ok .decode
    else if c = 0x40000000#32 then decode c = .ok .destroy
    else ∃ r, decode c = .error r

/-- Words written out from the encoding tables decode to the commands they stand for (30_encoding.md rule R93). -/
def Obligations.WrittenWordsDecode : Prop :=
  decode 0x10000004#32 = .ok (.create 4 0) ∧ decode 0x110002D0#32 = .ok (.create 720 1) ∧
  decode 0x11010000#32 = .ok (.create 65536 1) ∧ decode 0x20000000#32 = .ok .encode ∧
  decode 0x30000000#32 = .ok .decode ∧ decode 0x40000000#32 = .ok .destroy ∧
  decode 0x12000004#32 = .error .zero3 ∧ decode 0x20000001#32 = .error .zero28 ∧ decode 0x50000000#32 = .error .op

/-! ### The step -/

/-- When the host issues a word that decodes to `i` on an idle engine, the step is `exec i` with the move consumed. The
encoding of a well-formed command is such a word, and `withFetchWord` places it. The queue of moves is the model's choice
(log 9). -/
def Obligations.StepRunsTheDecodedCommand : Prop :=
  (∀ (s : State) (c : CommandWord) (i : Instr) (rest : List HostMove),
    s.waiting = none → s.hostMoves = .command c :: rest → decode c = .ok i →
      step s = exec i { s with hostMoves := rest }) ∧
  ∀ (s : State) (i : Instr), i.wellFormed = true →
    step (s.withFetchWord 32 (encode i).toNat) = exec i { s with waiting := none }

/-- The engine takes its open parameters as an argument (00_scope.md rule R9): `exec` and `step` are the commands and
the step of the engine with the parameters `Config.params`, a constant without a body. Every statement below that is
said for all parameters `P` of `execWith` or `engineStep` holds of `exec` and `step` by this one. -/
def Obligations.StepTakesTheOpenParameters : Prop :=
  (∀ (i : Instr) (s : State), exec i s = execWith Config.params i s) ∧ ∀ s : State, step s = engineStep Config.params s

/-- 60_exceptions.md rule R293, 30_encoding.md rule R94: a word no row of the opcode table matches sets `STATUS` to 4 and
changes nothing else of the engine. -/
def Obligations.ReservedWordReportsIllegal : Prop :=
  ∀ (s : State) (c : CommandWord) (rest : List HostMove),
    s.waiting = none → s.hostMoves = .command c :: rest →
    c &&& 0xFE000000#32 ≠ 0x10000000#32 → c ≠ 0x20000000#32 → c ≠ 0x30000000#32 → c ≠ 0x40000000#32 →
      step s = .next { s with hostMoves := rest, status := 4 }

/-- The other moves of the host on an idle engine (70_reset_and_hazards.md rule R345): a write of `LINE_IN` changes that
element only, a read of `LINE_OUT` records the element that is there, a reset leaves what both agents hold. An access to an
element that does not exist is refused. The queue and the record of reads are the model's choice (log 8, log 9), and so
are the values a reset gives what it leaves unspecified (log 5). -/
def Obligations.HostMovesOnTheIdleEngine : Prop :=
  ∀ (s : State) (rest : List HostMove) (k : Nat) (v : Number), s.waiting = none →
    (s.hostMoves = .writeLineIn k v :: rest → k < 3 * Config.params.widthMax →
      ∃ t, step s = .next t ∧ t = { s with hostMoves := rest, lineIn := t.lineIn } ∧
        ∀ i, bufGet t.lineIn i = if i = k then some v else bufGet s.lineIn i) ∧
    (s.hostMoves = .readLineOut k :: rest → k < 3 * Config.params.widthMax → bufGet s.lineOut k = some v →
      step s = .next { s with hostMoves := rest, hostReads := .lineOut k v :: s.hostReads }) ∧
    (s.hostMoves = .reset :: rest →
      step s = .next { State.reset with
        hostMoves := rest, hostReads := s.hostReads, estAnswers := s.estAnswers, estQueries := s.estQueries
        freeCount := s.freeCount, resetCount := s.resetCount + 1 }) ∧
    (s.hostMoves = .writeLineIn k v :: rest ∨ s.hostMoves = .readLineOut k :: rest → 3 * Config.params.widthMax ≤ k →
      step s = .refused (.noSuchLineElement k))

/-- Two reads of one `LINE_OUT` element with nothing written between, whether or not anything has written the element
before, both complete, return the same number and change nothing of the engine (20_memory.md rule R61). The record of
reads is the model's choice (log 8). -/
def Obligations.LineOutReadIsIdempotent : Prop :=
  ∀ (s : State) (k : Nat) (rest : List HostMove), s.waiting = none → k < 3 * Config.params.widthMax →
    s.hostMoves = .readLineOut k :: .readLineOut k :: rest →
    ∃ t v, step s = .next t ∧
      step t = .next { s with hostMoves := rest, hostReads := .lineOut k v :: .lineOut k v :: s.hostReads }

/-- What a host read of each control register gives (the reads of 10_state.md rule R38; of its 'never write' nothing is
said here). A read changes nothing of the engine; with no context registers 2, 3 and 4 read as some value that fits
them. The record of reads and the counter of free values are the model's choice (log 8), the queue of moves too (log
9). -/
def Obligations.ControlRegisterMap : Prop :=
  ∀ (s : State) (n : Nat) (rest : List HostMove), s.waiting = none → s.hostMoves = .readControl n :: rest →
    (n < 5 → ∃ v, step s = .next { s with
        hostMoves := rest, hostReads := .control n v :: s.hostReads, freeCount := s.freeCount + 1 } ∧
      (n = 0 → v.toNat = s.status.toNat) ∧ (n = 1 → v.toNat = s.ctxValid.toNat) ∧
      (s.ctxValid = 1 → (n = 2 → v.toNat = s.width.toNat) ∧ (n = 3 → v.toNat = s.hmode.toNat) ∧
        (n = 4 → v.toNat = s.phase.toNat)) ∧
      (n = 2 → v.toNat < 2 ^ 16) ∧ (n = 3 ∨ n = 4 → v.toNat < 2)) ∧
    (5 ≤ n → step s = .refused (.noSuchControlRegister n))

/-- A DECODE with an outstanding query: with no answer and no reset coming no step is enabled; a reset abandons it
(70_reset_and_hazards.md rule R341, rule R345). That a pending reset comes before an answer is the model's choice (log
12). -/
def Obligations.UnansweredQueryIsStuckButForReset : Prop :=
  ∀ (s : State) (d : Waiting), s.waiting = some d →
    (s.estAnswers = [] → s.hostMoves.head? ≠ some .reset → step s = .fault .estimatorNeverAnswers) ∧
    ∀ rest, s.hostMoves = .reset :: rest →
      ∃ t, step s = .next t ∧ t.waiting = none ∧ t.ctxValid = 0 ∧ t.status = 0 ∧ t.hostMoves = rest

/-! ### Reset and the errors (60_exceptions.md, 70_reset_and_hazards.md) -/

/-- 70_reset_and_hazards.md rule R330: after reset there is no context, `STATUS` is 0 and the engine is idle. -/
def Obligations.ResetLeavesNoContext : Prop :=
  State.reset.ctxValid = 0 ∧ State.reset.status = 0 ∧ State.reset.waiting = none

/-- 60_exceptions.md rule R292, 46_context_commands.md rule R264: ENCODE, DECODE and DESTROY without a context, and CREATE
with one, write 3 to `STATUS` and change nothing else. -/
def Obligations.ContractViolationChangesOnlyStatus : Prop :=
  ∀ (s : State) (width : Nat) (h : BitVec 1),
    (s.ctxValid = 0 → exec .encode s = .next { s with status := 3 } ∧ exec .decode s = .next { s with status := 3 } ∧
      exec .destroy s = .next { s with status := 3 }) ∧
    (s.ctxValid = 1 → exec (.create width h) s = .next { s with status := 3 })

/-- The errors of CREATE without a context, in their order (60_exceptions.md rule R291, rule R295): width 65535 and above,
the refusal of widths below 3, width above `WIDTH_MAX`. Said for every value of the open parameters; `exec` runs the
engine's. -/
def Obligations.CreateErrorsInOrder : Prop :=
  ∀ (P : Params Number) (width : Nat) (h : BitVec 1) (s : State), s.ctxValid = 0 →
    exec (.create width h) s = createWith Config.params width h s ∧
    (65535 ≤ width → createWith P width h s = .next { s with status := 1 }) ∧
    (width < 3 → createWith P width h s = .refused (.widthBelowThree width)) ∧
    (P.widthMax < width → width < 65535 → createWith P width h s = .next { s with status := 2 })

/-- A command word, legal or not, that ends with an error code in `STATUS` changes nothing else (60_exceptions.md rule
R296). -/
def Obligations.ErrorLeavesEverythingButStatus : Prop :=
  ∀ (c : CommandWord) (s t : State), s.waiting = none → issueCommand exec c s = .next t →
    t.waiting = none → t.status ≠ 0 → t = { s with status := t.status }

/-! ### CREATE and DESTROY (46_context_commands.md) -/

/-- CREATE of a width from 3 to `WIDTH_MAX` without a context, whose values are finite, completes, with every register
and table as 46_context_commands.md rule R260 says, and writes nothing else (`CB`, `LINE_IN`, `LINE_OUT` and the agents'
fields stay). -/
def Obligations.CreateBuildsTheContext : Prop :=
  ∀ (P : Params Number) (width : Nat) (h : BitVec 1) (s : State), s.ctxValid = 0 → 3 ≤ width → width ≤ P.widthMax →
    createFinite P.num width = true →
    ∃ t, execWith P (.create width h) s = .next t ∧ (P = Config.params → exec (.create width h) s = .next t) ∧
      t = { s with
        ctxValid := 1, status := 0, width := t.width, hmode := h, phase := 0, fi := t.fi, fq := t.fq
        sin := t.sin, cos := t.cos, pl := t.pl, pc := t.pc } ∧
      t.width.toNat = width ∧
      (let N := P.num
       let angle := fun i : Nat =>
         N.mul (N.div (N.decimal (((50 * width / 73) ||| 1) * i : Nat) 0) (N.decimal width 0)) N.pi
       ∀ i, bufGet t.sin i = (if i < 2 * width then some (N.sin (angle i)) else none) ∧
         bufGet t.cos i = (if i < 2 * width then some (N.cos (angle i)) else none) ∧
         bufGet t.pl i = (if i < width then some (P.histResetL i) else none) ∧
         bufGet t.pc i = if i < width then some (P.histResetC i) else none) ∧
      t.fi = bqInit P.num (P.num.decimal 8 2) ∧
      t.fq = bqInit P.num (P.num.decimal 5 2)

/-- BQ.INIT as 41_biquad_filter.md rule R141 writes it, operator by operator, in every number format; over ℝ a cutoff
between 0 and 0.5 has `k > 0` and a denominator above 1. -/
def Obligations.FilterInitialisation : Prop :=
  (∀ fc : ℝ, 0 < fc → fc < 0.5 →
    0 < bqPrewarp realFormat fc ∧
      1 < 1 + bqPrewarp realFormat fc / 0.7 + bqPrewarp realFormat fc * bqPrewarp realFormat fc) ∧
  ∀ {α : Type} (N : NumFormat α) (fc : α),
    let k := N.tan (N.mul N.pi fc)
    let q := N.decimal 7 1
    let one := N.decimal 1 0
    let two := N.decimal 2 0
    let norm := N.div one (N.add (N.add one (N.div k q)) (N.mul k k))
    bqInit N fc =
      { a0 := N.mul (N.mul k k) norm
        a1 := N.mul two (N.mul (N.mul k k) norm)
        a2 := N.mul (N.mul k k) norm
        b1 := N.mul (N.mul two (N.sub (N.mul k k) one)) norm
        b2 := N.mul (N.add (N.sub one (N.div k q)) (N.mul k k)) norm
        z1 := N.decimal 0 0
        z2 := N.decimal 0 0 }

/-- DESTROY of a context completes: no context, `STATUS` 0; the line buffers and the agents' fields stay
(46_context_commands.md rule R263). The context's registers and buffers are unspecified then, and nothing is said of
them. -/
def Obligations.DestroyEndsTheContext : Prop :=
  ∀ s : State, s.ctxValid = 1 →
    ∃ t, exec .destroy s = .next t ∧ t.ctxValid = 0 ∧ t.status = 0 ∧
      s = { t with
        ctxValid := s.ctxValid, status := s.status, width := s.width, hmode := s.hmode, phase := s.phase, fi := s.fi
        fq := s.fq, sin := s.sin, cos := s.cos, cb := s.cb, pl := s.pl, pc := s.pc, freeCount := s.freeCount }

/-- A CREATE that follows a DESTROY builds a context that owes nothing to the old one: it is the context that the same
CREATE builds right after reset (46_context_commands.md rule R263). -/
def Obligations.CreateAfterDestroyIsFresh : Prop :=
  ∀ (P : Params Number) (s : State) (width : Nat) (h : BitVec 1), s.ctxValid = 1 → 3 ≤ width → width ≤ P.widthMax →
    createFinite P.num width = true →
    ∃ t u v, execWith P .destroy s = .next t ∧ execWith P (.create width h) t = .next u ∧
      execWith P (.create width h) State.reset = .next v ∧
      u = { v with
        lineIn := s.lineIn, lineOut := s.lineOut, waiting := s.waiting, hostMoves := s.hostMoves
        hostReads := s.hostReads, estAnswers := s.estAnswers, estQueries := s.estQueries, freeCount := u.freeCount
        resetCount := s.resetCount }

/-! ### The carrier generator (40_carrier_generator.md) -/

/-- 40_carrier_generator.md rule R120: the carrier frequency is `floor(w / 1.46)` with its low bit set, never decreased. -/
def Obligations.CarrierFrequencyIsFloorWithLowBitSet : Prop :=
  ∀ w : Nat, carrierFreq w = (⌊(w : ℚ) / (146 / 100)⌋.toNat ||| 1) ∧ carrierFreq w = (50 * w / 73) ||| 1 ∧
    carrierFreq w % 2 = 1 ∧ 50 * w / 73 ≤ carrierFreq w ∧ carrierFreq w ≤ 50 * w / 73 + 1

/-- 40_carrier_generator.md rule R129: the range of the carrier frequency and of its ratio to the width. -/
def Obligations.CarrierFrequencyRange : Prop :=
  ∀ w : Nat, 3 ≤ w → w ≤ 65534 →
    carrierFreq w % 2 = 1 ∧ 3 ≤ carrierFreq w ∧ carrierFreq w ≤ 44887 ∧ carrierFreq w ≤ w ∧
    (carrierFreq w = w ↔ w = 3) ∧
    (6 / 10 : ℚ) ≤ carrierFreq w / w ∧ (carrierFreq w / w : ℚ) ≤ 1 ∧
    (50 / 73 - 1 / w : ℚ) < carrierFreq w / w ∧ (carrierFreq w / w : ℚ) ≤ 50 / 73 + 1 / w

/-- 40_carrier_generator.md rule R124: over ℝ the second half of each carrier table is the negated first half, so the
windows of a line with `PHASE = 1` are the negated windows of a line with `PHASE = 0`. -/
def Obligations.SecondHalfIsTheNegatedFirstHalf : Prop :=
  ∀ w : Nat, 3 ≤ w →
    (∀ j, j < w →
      (∃ a, bufGet (cgenSin realFormat w) j = some a ∧ bufGet (cgenSin realFormat w) (w + j) = some (-a)) ∧
      ∃ b, bufGet (cgenCos realFormat w) j = some b ∧ bufGet (cgenCos realFormat w) (w + j) = some (-b)) ∧
    ∃ sw cw : List ℝ,
      cgenWindow .sin (cgenSin realFormat w) 0 w = .ok sw ∧
      cgenWindow .sin (cgenSin realFormat w) 1 w = .ok (sw.map fun v => -v) ∧
      cgenWindow .cos (cgenCos realFormat w) 0 w = .ok cw ∧
      cgenWindow .cos (cgenCos realFormat w) 1 w = .ok (cw.map fun v => -v)

/-- The carrier tables over ℝ: sine and cosine of `f·i·π/w`, in quadrature, with the corner values of
40_carrier_generator.md rule R121 at the start of each half. -/
def Obligations.CarrierTablesAreSineAndCosine : Prop :=
  ∀ w i : Nat, 3 ≤ w → i < 2 * w →
    ∃ a b : ℝ, bufGet (cgenSin realFormat w) i = some a ∧ bufGet (cgenCos realFormat w) i = some b ∧
      a = Real.sin (carrierFreq w * i * Real.pi / w) ∧ b = Real.cos (carrierFreq w * i * Real.pi / w) ∧
      a ^ 2 + b ^ 2 = 1 ∧ (i = 0 → a = 0 ∧ b = 1) ∧ (i = w → a = 0 ∧ b = -1)

/-- 40_carrier_generator.md rule R123: the window is the `w` elements of the table that the phase selects. -/
def Obligations.WindowIsTheHalfThePhaseSelects : Prop :=
  ∀ (name : BufferName) (table : Buffer Number) (phase : BitVec 1) (w : Nat) (f : Nat → Number),
    (∀ i, i < 2 * w → bufGet table i = some (f i)) →
      ∃ l, cgenWindow name table phase w = .ok l ∧ l.length = w ∧ ∀ j, j < w → l[j]? = some (f (phase.toNat * w + j))

/-! ### The biquad filter (41_biquad_filter.md) -/

/-- 41_biquad_filter.md rule R147: the same input sequence gives the same outputs and final state however it is cut into
batches, in every number format. -/
def Obligations.FilterBatchingIsInvisible : Prop :=
  ∀ {α : Type} (N : NumFormat α) (F : Biquad α) (b₁ b₂ : List (List α)),
    b₁.flatten = b₂.flatten → bqRunBatches N F b₁ = bqRunBatches N F b₂

/-- 41_biquad_filter.md rule R146, over ℝ from the zero state: the outputs obey the second-order difference equation. -/
def Obligations.FilterObeysTheDifferenceEquation : Prop :=
  ∀ (F : Biquad ℝ) (xs : List ℝ), F.z1 = 0 → F.z2 = 0 →
    let x := fun n : ℤ => if 0 ≤ n then xs.getD n.toNat 0 else 0
    let y := fun n : ℤ => if 0 ≤ n then (bqRun realFormat F xs).1.getD n.toNat 0 else 0
    ∀ n : Nat, n < xs.length →
      y n = F.a0 * x n + F.a1 * x (n - 1) + F.a2 * x (n - 2) - F.b1 * y (n - 1) - F.b2 * y (n - 2)

/-- Over ℝ both filters of a context have unit gain at zero frequency, a double zero at `z = -1` and are stable
(41_biquad_filter.md, the derived rule on the input-output law). -/
def Obligations.FiltersAreStableUnitGainLowPass : Prop :=
  ∀ fc : ℝ, fc = fcI realFormat ∨ fc = fcQ realFormat →
    let F := bqInit realFormat fc
    F.a1 = 2 * F.a0 ∧ F.a2 = F.a0 ∧ (F.a0 + F.a1 + F.a2) / (1 + F.b1 + F.b2) = 1 ∧ F.a0 - F.a1 + F.a2 = 0 ∧
      |F.b2| < 1 ∧ |F.b1| < 1 + F.b2

/-! ### The colour transform (42_color_transform.md) -/

/-- The three transforms over ℝ with the decimal weights of 42_color_transform.md rules R160 to R162 and no clamping, a gray
pixel without chroma, and the round trips of rule R164. -/
def Obligations.ColourTransformsAreTheLinearMaps : Prop :=
  (∀ r g b i q y v : ℝ,
    ctLuma realFormat (r, g, b) = 0.30 * r + 0.59 * g + 0.11 * b ∧
    ctChroma realFormat (r, g, b) = (0.6 * r - 0.28 * g - 0.32 * b, 0.21 * r - 0.52 * g + 0.31 * b) ∧
    ctToRgb realFormat (i, q) y =
      (0.96 * i + 0.62 * q + y, -0.27 * i - 0.65 * q + y, -1.11 * i + 1.70 * q + y) ∧
    ctLuma realFormat (v, v, v) = v ∧ ctChroma realFormat (v, v, v) = (0, 0) ∧
    ctToRgb realFormat (ctChroma realFormat (v, v, v)) (ctLuma realFormat (v, v, v)) = (v, v, v)) ∧
  let trip := fun p : ℝ × ℝ × ℝ => ctToRgb realFormat (ctChroma realFormat p) (ctLuma realFormat p)
  trip (1, 0, 0) = (1.0062, 0.0015, -0.009) ∧ trip (0, 1, 0) = (-0.0012, 1.0036, 0.0168) ∧
    trip (0, 0, 1) = (-0.005, -0.0051, 0.9922) ∧ trip (0.5, -0.5, 0.25) = (0.50245, -0.502325, 0.23515)

/-! ### ENCODE (43_modulator.md) -/

/-- ENCODE on a live context whose tables and input line hold values, all that it computes being finite, completes: `CB`
is the chroma of each pixel, sample `j` of the line is the filtered chroma on the carrier plus the luma of pixel `j`,
the filters have taken the line and three zeros, `PHASE` is complemented, `STATUS` is 0, and nothing else changes (rules
R181 to R188). -/
def Obligations.EncodeComputesTheCompositeLine : Prop :=
  ∀ (P : Params Number) (s : State) (w : Nat) (sn cs x : Nat → Number), LineReady P s w (3 * w) sn cs x →
    encodeFinite P s = true →
    let N := P.num
    let pixel := fun i => (x (3 * i), x (3 * i + 1), x (3 * i + 2))
    let o := s.phase.toNat * w
    ∃ t, execWith P .encode s = .next t ∧ (P = Config.params → exec .encode s = .next t) ∧
      t = { s with
        cb := t.cb, lineOut := t.lineOut, phase := ~~~s.phase, status := 0
        fi := (bqRun N s.fi (lineStream N w fun i => (ctChroma N (pixel i)).1)).2
        fq := (bqRun N s.fq (lineStream N w fun i => (ctChroma N (pixel i)).2)).2 } ∧
      (∀ i, bufGet t.cb i = if i < w then some (ctChroma N (pixel i)) else bufGet s.cb i) ∧
      ∀ j, bufGet t.lineOut j =
        if j < w then
          some (N.add
            (N.add (N.mul (lineOutput N s.fi w (fun i => (ctChroma N (pixel i)).1) j) (sn (o + j)))
              (N.mul (lineOutput N s.fq w (fun i => (ctChroma N (pixel i)).2) j) (cs (o + j))))
            (ctLuma N (pixel j)))
        else bufGet s.lineOut j

/-- Over ℝ a line of gray pixels through filters at rest is its own luma, and the filters stay at rest
(43_modulator.md, the corner cases). -/
def Obligations.GrayLineEncodesToItsLuma : Prop :=
  ∀ (fi fq : Biquad ℝ) (sw cw vs : List ℝ), fi.z1 = 0 → fi.z2 = 0 → fq.z1 = 0 → fq.z2 = 0 →
    3 ≤ vs.length → sw.length = vs.length → cw.length = vs.length →
    let line := encodeLine realFormat fi fq sw cw (vs.map fun v => (v, v, v))
    line.out = vs ∧ line.fi = fi ∧ line.fq = fq

/-- ENCODE on a live context faults exactly where its input line has an element the host has not written: at the first
one (70_reset_and_hazards.md rule R333). The elements before it may hold values that are not finite: that the fault
comes before the refusal for such a value is the model's choice (log 2). -/
def Obligations.EncodeFaultsAtTheFirstUnwrittenElement : Prop :=
  ∀ (s : State) (w k : Nat) (sn cs x : Nat → Number), LineReady Config.params s w k sn cs x →
    k < 3 * w → bufGet s.lineIn k = none →
    exec .encode s = .fault (.noValue .lineIn k)

/-! ### DECODE (44_demodulator.md, 45_harmonic_canceller.md) -/

/-- DECODE in plain mode on a live context whose tables, histories and input line hold values, all that it computes
being finite, completes: the two-line comb, then the demodulation, reconstruction and history update; `PHASE` is
complemented, `STATUS` is 0, nothing else changes. -/
def Obligations.PlainDecodeComputesTheRecoveredLine : Prop :=
  ∀ (P : Params Number) (s : State) (w : Nat) (sn cs x pl pc : Nat → Number), LineReady P s w w sn cs x → s.hmode = 0 →
    (∀ i, i < w → bufGet s.pl i = some (pl i) ∧ bufGet s.pc i = some (pc i)) → decodeFinite P s = true →
    let N := P.num
    ∃ t, execWith P .decode s = .next t ∧ (P = Config.params → exec .decode s = .next t) ∧
      t = { s with
        cb := t.cb, lineOut := t.lineOut, fi := t.fi, fq := t.fq, pl := t.pl, pc := t.pc, phase := ~~~s.phase
        status := 0 } ∧
      DecodedFrom N s t w x (fun i => N.div (N.add (x i) (pl i)) (N.decimal 2 0))
        (fun i => N.div (N.sub (x i) (pc i)) (N.decimal 2 0)) sn cs

/-- DECODE in harmonic mode with an answer for each of the line's blocks, all that it computes being finite, completes:
one query per block in order, the luma line corrected by the answers, then as in plain mode; the answers not needed
stay. Answers and queries as lists are the model's choice (log 10). -/
def Obligations.HarmonicDecodeComputesTheCorrectedLine : Prop :=
  ∀ (P : Params Number) (s : State) (w : Nat) (sn cs x pc : Nat → Number) (answers rest : List (List (Estimate Number))),
    LineReady P s w w sn cs x → s.hmode = 1 → s.waiting = none →
    (∀ i, i < w → bufGet s.pc i = some (pc i)) →
    s.estAnswers = answers ++ rest → answers.length = blockCount w → decodeFinite P s = true →
    let N := P.num
    let xs := fun i => N.div (N.sub (x i) (pc i)) (N.decimal 2 0)
    ∃ t, execWith P .decode s = .next t ∧ (P = Config.params → exec .decode s = .next t) ∧
      t = { s with
        cb := t.cb, lineOut := t.lineOut, fi := t.fi, fq := t.fq, pl := t.pl, pc := t.pc, phase := ~~~s.phase
        status := 0, estAnswers := rest
        estQueries := s.estQueries ++ (List.range (blockCount w)).map (queryOf N w xs) } ∧
      DecodedFrom N s t w x (correctedLuma N (fun b => answers.getD b []) x) xs sn cs

/-- DECODE in harmonic mode with fewer answers than blocks, all that it computes being finite, takes them all, leaves
one query outstanding and changes no other state of the engine (70_reset_and_hazards.md rule R341). The form of the
waiting is the model's choice (log 10). -/
def Obligations.HarmonicDecodeWaitsForTheNextAnswer : Prop :=
  ∀ (P : Params Number) (s : State) (w : Nat) (sn cs x pc : Nat → Number), LineReady P s w w sn cs x → s.hmode = 1 →
    (∀ i, i < w → bufGet s.pc i = some (pc i)) → s.estAnswers.length < blockCount w →
    decodeFinite P s = true →
    let N := P.num
    let xs := fun i => N.div (N.sub (x i) (pc i)) (N.decimal 2 0)
    ∃ d t, execWith P .decode s = .next t ∧ (P = Config.params → exec .decode s = .next t) ∧
      t = { s with
        estAnswers := [], waiting := some d
        estQueries := s.estQueries ++ (List.range (s.estAnswers.length + 1)).map (queryOf N w xs) } ∧
      d.block = s.estAnswers.length ∧ d.xs = (List.range w).map xs

/-- A harmonic DECODE whose answers come in two parts, the second after it has begun to wait, ends in the state it would
have reached with all of them at once: the engine keeps nothing of the estimator but the line being corrected
(10_state.md rule R35, 20_memory.md rule R73). Answers as lists are the model's choice (log 10). -/
def Obligations.LateAnswersGiveTheSameDecode : Prop :=
  ∀ (P : Params Number) (s t : State) (early late : List (List (Estimate Number))), s.waiting = none → late ≠ [] →
    s.hostMoves.head? ≠ some .reset →
    execWith P .decode { s with estAnswers := early } = .next t → t.waiting.isSome →
      engineStep P { t with estAnswers := late } = execWith P .decode { s with estAnswers := early ++ late }

/-- DECODE on a live context faults at the first element of its input line that the host has not written
(70_reset_and_hazards.md rule R333). The elements before it may hold values that are not finite: that the fault comes
before the refusal for such a value is the model's choice (log 2). -/
def Obligations.DecodeFaultsAtTheFirstUnwrittenElement : Prop :=
  ∀ (s : State) (w k : Nat) (sn cs x : Nat → Number), LineReady Config.params s w k sn cs x →
    k < w → bufGet s.lineIn k = none →
    exec .decode s = .fault (.noValue .lineIn k)

/-- 44_demodulator.md rule R207: a DECODE that completes, in either mode, at once or after it has waited for the estimator,
leaves the raw input line in both histories. -/
def Obligations.HistoryIsTheRawInputLine : Prop :=
  ∀ (P : Params Number) (s t : State), s.ctxValid = 1 → t.ctxValid = 1 → t.waiting = none →
    execWith P .decode s = .next t ∨ (s.waiting.isSome ∧ engineStep P s = .next t) →
    ∀ i, i < lineWidth s →
      (bufGet s.lineIn i).isSome ∧ bufGet t.pl i = bufGet s.lineIn i ∧ bufGet t.pc i = bufGet s.lineIn i

/-- 45_harmonic_canceller.md rule R239: the write regions of a line's blocks are disjoint and cover it, and the number of
processed blocks is `NB(w)` (rule R232). -/
def Obligations.WriteRegionsPartitionTheLine : Prop :=
  ∀ w : Nat, 1 ≤ w →
    (∀ b, blockInLine w b = true ↔ b < blockCount w) ∧
    ∀ p, p < w →
      blockInLine w (blockOf p) = true ∧
      ∀ b, (8 * b + blockLow b ≤ p ∧ p < 8 * b + 12) ↔ b = blockOf p

/-- HRC.CANCEL over every number format: with an answer for each block it sends one query per block in order and each luma
position is corrected once, by the first component of its block's answer that lies in the band, or not at all
(45_harmonic_canceller.md rule R238). -/
def Obligations.CancellerCorrectsEachPositionOnce : Prop :=
  ∀ {α : Type} (N : NumFormat α) (w : Nat) (ls xs : List α) (answers : List (List (Estimate α))),
    1 ≤ w → ls.length = w → xs.length = w → blockCount w ≤ answers.length →
    ∃ ls', hrcCancel N w ls xs answers =
        .done ls' (answers.drop (blockCount w)) ((List.range (blockCount w)).map (hrcQuery N xs)) ∧
      ls'.length = w ∧
      ∀ p (v : α), ls[p]? = some v →
        ls'[p]? = some (match hrcSelect N ((answers.getD (blockOf p) []).take 4) with
          | none => v
          | some e => N.sub v (hrcSinusoid N e (p - 8 * blockOf p)))

/-- 45_harmonic_canceller.md rule R235 over ℝ: the selected component is the first whose frequency is at least 2.0 and
below 2.3. -/
def Obligations.SelectionTakesTheFirstInBand : Prop :=
  ∀ (res : List (Estimate ℝ)) (e : Estimate ℝ),
    hrcSelect realFormat res = some e ↔
      ∃ before after, res = before ++ e :: after ∧ 2 ≤ e.frequency ∧ e.frequency < 2.3 ∧
        ∀ c ∈ before, ¬ (2 ≤ c.frequency ∧ c.frequency < 2.3)

/-! ### Finite numbers (00_scope.md rule R10) -/

/-- A line command on a live context whose input line has a number that is not finite is refused, for every value of the
open parameters; `exec` runs the engine's (00_scope.md rule R10, 93_implementation_defined.md U3). -/
def Obligations.NonFiniteInputIsRefused : Prop :=
  ∀ (P : Params Number) (s : State) (w k : Nat) (sn cs x pl pc : Nat → Number),
    s.ctxValid = 1 → lineWidth s = w → 3 ≤ w → w ≤ P.widthMax →
    (∀ i, i < 2 * w → bufGet s.sin i = some (sn i) ∧ bufGet s.cos i = some (cs i)) → P.num.finite (x k) = false →
    (k < 3 * w → (∀ i, i < 3 * w → bufGet s.lineIn i = some (x i)) →
      encodeWith P s = .refused .nonFiniteValue ∧ exec .encode s = encodeWith Config.params s) ∧
    (k < w → (∀ i, i < w → bufGet s.lineIn i = some (x i) ∧ bufGet s.pl i = some (pl i) ∧ bufGet s.pc i = some (pc i)) →
      decodeWith P s = .refused .nonFiniteValue ∧ exec .decode s = decodeWith Config.params s)

/-- A line command that completes has read finite input only, and every number it leaves in `CB`, `LINE_OUT` and the filters
is finite (00_scope.md rule R10). -/
def Obligations.CompletedLineIsFinite : Prop :=
  ∀ (P : Params Number) (i : Instr) (n : Nat) (s t : State),
    (i = .encode ∧ n = 3 * lineWidth s) ∨ (i = .decode ∧ n = lineWidth s) →
    s.ctxValid = 1 → execWith P i s = .next t → t.waiting = none →
    let finite := fun v : Number => P.num.finite v = true
    (∀ k, k < n → ∃ v, bufGet s.lineIn k = some v ∧ finite v) ∧
    (∀ k, k < lineWidth s → ∃ c, bufGet t.cb k = some c ∧ finite c.1 ∧ finite c.2) ∧
    (∀ k, k < 4 * lineWidth s - n → ∃ v, bufGet t.lineOut k = some v ∧ finite v) ∧
    registersFinite P.num t.fi ∧ registersFinite P.num t.fq

/-- Where every number of the format is finite, as in ℝ, no line command on a context and no waiting DECODE is refused, and
CREATE is refused for the widths below 3 only (00_scope.md rule R10, 93_implementation_defined.md U3). -/
def Obligations.FiniteFormatsAreNeverRefused : Prop :=
  ∀ P : Params Number, (∀ v, P.num.finite v = true) → ∀ (s : State) (r : Refusal),
    encodeWith P s ≠ .refused r ∧ decodeWith P s ≠ .refused r ∧ (∀ d, waitingStep P d s ≠ .refused r) ∧
    ∀ (width : Nat) (h : BitVec 1), createWith P width h s = .refused r → r = .widthBelowThree width ∧ width < 3

/-! ### Buffers (20_memory.md) -/

/-- A read gives the value of the last write to its element and a write changes no other element (20_memory.md rule R61).
Outside the buffer the rule defines neither; that both fault there is the model's choice (log 11). -/
def Obligations.ReadAfterWrite : Prop :=
  ∀ {α : Type} (size : Nat) (name : BufferName) (b : Buffer α) (i : Nat) (v : α),
    (i < size → ∃ b', memWrite size name b i v = .ok b' ∧ memRead size name b' i = .ok v ∧
      ∀ k, k ≠ i → memRead size name b' k = memRead size name b k) ∧
    (size ≤ i → memWrite size name b i v = .error (.indexOutOfRange name i) ∧
      memRead size name b i = .error (.indexOutOfRange name i))

/-! ### Invariants of the machine -/

/-- The invariant holds right after reset. -/
def Obligations.ResetMeetsTheInvariant : Prop := ∀ P : Params Number, Inv P State.reset

/-- Every step keeps the invariant: buffers canonical and inside their address spaces, `LINE_OUT` finite, `STATUS` a result
code, and while a context exists its width legal, its tables those of CGEN.FILL, its coefficients those of BQ.INIT, its
histories whole, and its tables, filters and `CB` finite. -/
def Obligations.EveryStepKeepsTheInvariant : Prop :=
  (∀ (P : Params Number) (s t : State), Inv P s → engineStep P s = .next t → Inv P t) ∧
    ∀ s t : State, Inv Config.params s → step s = .next t → Inv Config.params t

/-- 20_memory.md rule R62: from a state of the invariant no access leaves its buffer and no unspecified context state is
read. The only faults are an input line not written whole and an estimator that never answers. -/
def Obligations.OnlyUnwrittenInputOrSilenceFaults : Prop :=
  ∀ (P : Params Number) (s : State) (f : Fault), Inv P s → engineStep P s = .fault f →
    unwrittenInput f ∨ f = .estimatorNeverAnswers

/-- While a context lives no step changes its width, its mode, its carrier tables or its filter coefficients
(10_state.md rules R22, R23, R30, 41_biquad_filter.md rule R143). -/
def Obligations.LiveContextKeepsItsConstants : Prop :=
  ∀ (P : Params Number) (s t : State), engineStep P s = .next t → s.ctxValid = 1 → t.ctxValid = 1 →
    t.width = s.width ∧ t.hmode = s.hmode ∧ t.sin = s.sin ∧ t.cos = s.cos ∧
    sameCoefficients t.fi s.fi ∧ sameCoefficients t.fq s.fq

/-- While a context lives a step changes `PHASE` only by completing an ENCODE or a DECODE: `PHASE` is complemented and
`STATUS` is 0 (10_state.md rule R24). -/
def Obligations.PhaseTogglesOnlyOnLineCommands : Prop :=
  ∀ (P : Params Number) (s t : State), engineStep P s = .next t → s.ctxValid = 1 → t.ctxValid = 1 → t.phase ≠ s.phase →
    t.phase = ~~~s.phase ∧ t.status = 0 ∧ t.waiting = none ∧
      (s.hostMoves.head? = some (.command 0x20000000#32) ∨ s.hostMoves.head? = some (.command 0x30000000#32) ∨
        s.waiting.isSome)

/-- While a context lives a step moves the filter state only by BQ.PROCESS: by `w + 3` calls on each filter, with `PHASE`
complemented, or by none (10_state.md rule R29, 41_biquad_filter.md rule R148). -/
def Obligations.FiltersAdvanceOnlyByProcess : Prop :=
  ∀ (P : Params Number) (s t : State), Inv P s → engineStep P s = .next t → s.ctxValid = 1 → t.ctxValid = 1 →
    (t.fi = s.fi ∧ t.fq = s.fq ∧ t.phase = s.phase) ∨
    ∃ us vs : List Number, us.length = lineWidth s + 3 ∧ vs.length = lineWidth s + 3 ∧ t.phase = ~~~s.phase ∧
      t.fi = (bqRun P.num s.fi us).2 ∧ t.fq = (bqRun P.num s.fq vs).2

/-- `LINE_IN` is changed only by a host write or a reset, `LINE_OUT` only by a completed line command or a reset
(10_state.md rule R33). That a reset empties both is the model's choice (log 6). -/
def Obligations.LineBuffersHaveTheirWriters : Prop :=
  ∀ (P : Params Number) (s t : State), Inv P s → engineStep P s = .next t →
    (t.lineIn ≠ s.lineIn → s.hostMoves.head? = some .reset ∨ ∃ k v, s.hostMoves.head? = some (.writeLineIn k v)) ∧
    (t.lineOut ≠ s.lineOut → s.hostMoves.head? = some .reset ∨
      (s.ctxValid = 1 ∧ t.phase = ~~~s.phase ∧ t.status = 0))
end

