-- ==== Sys2Proof/Laws/Buffer.lean ====
section
/-! SUPPORT. What each buffer operation does, said once. -/

namespace Sys2Proof.Machine

variable {α β : Type}

/-! ### Reading after writing -/

@[simp] theorem bufGet_nil (i : Nat) : bufGet ([] : Buffer α) i = none := rfl

theorem bufGet_bufPut (b : Buffer α) (i k : Nat) (v : α) :
    bufGet (bufPut b i v) k = if k = i then some v else bufGet b k := by
  induction b with
  | nil => simp only [bufPut, bufGet, eq_comm]
  | cons p rest ih =>
    obtain ⟨j, u⟩ := p
    by_cases hij : i < j
    · simp only [bufPut, hij, if_true, bufGet, eq_comm]
    · by_cases hi : i = j
      · subst hi
        by_cases hk : k = i
        · subst hk; simp [bufPut, bufGet]
        · have hk' : i ≠ k := fun h => hk h.symm
          simp [bufPut, bufGet, hk, hk']
      · simp only [bufPut, hij, hi, if_false, bufGet, ih]
        by_cases hj : j = k
        · subst hj; simp [Ne.symm hi]
        · simp [hj]

theorem bufGet_bufPutAll (b : Buffer α) (start : Nat) (vs : List α) (k : Nat) :
    bufGet (bufPutAll b start vs) k =
      if start ≤ k ∧ k < start + vs.length then vs[k - start]? else bufGet b k := by
  induction vs generalizing b start with
  | nil =>
    have h : ¬ (start ≤ k ∧ k < start + ([] : List α).length) := by simp
    rw [bufPutAll, if_neg h]
  | cons v vs ih =>
    rw [bufPutAll, ih, bufGet_bufPut, List.length_cons]
    by_cases h0 : k = start
    · subst h0; simp
    · by_cases h1 : start + 1 ≤ k ∧ k < start + 1 + vs.length
      · have h2 : start ≤ k ∧ k < start + (vs.length + 1) := by omega
        have h3 : k - start = (k - (start + 1)) + 1 := by omega
        rw [if_pos h1, if_pos h2, h3, List.getElem?_cons_succ]
      · have h2 : ¬ (start ≤ k ∧ k < start + (vs.length + 1)) := by omega
        rw [if_neg h1, if_neg h2, if_neg h0]

theorem bufGet_map_range' (n start : Nat) (f : Nat → α) (k : Nat) :
    bufGet ((List.range' start n).map fun i => (i, f i)) k =
      if start ≤ k ∧ k < start + n then some (f k) else none := by
  induction n generalizing start with
  | zero =>
    rw [if_neg (by omega)]; rfl
  | succ n ih =>
    rw [List.range'_succ, List.map_cons, bufGet, ih]
    by_cases h0 : start = k
    · subst h0; simp
    · rw [if_neg h0]
      congr 1
      simp only [eq_iff_iff]
      omega

theorem bufGet_bufTabulate (n : Nat) (f : Nat → α) (k : Nat) :
    bufGet (bufTabulate n f) k = if k < n then some (f k) else none := by
  rw [bufTabulate, List.range_eq_range', bufGet_map_range']
  simp

/-! ### The canonical form and the bounds are kept -/

theorem mem_bufPut {b : Buffer α} {i : Nat} {v : α} {p : Nat × α} (h : p ∈ bufPut b i v) :
    p = (i, v) ∨ p ∈ b := by
  induction b with
  | nil => simpa [bufPut] using h
  | cons q rest ih =>
    obtain ⟨j, u⟩ := q
    simp only [bufPut] at h
    split at h
    · simpa using h
    · split at h
      · rcases List.mem_cons.1 h with h | h
        · exact .inl h
        · exact .inr (List.mem_cons_of_mem _ h)
      · rcases List.mem_cons.1 h with h | h
        · exact .inr (by simp [h])
        · exact (ih h).imp id (List.mem_cons_of_mem _)

theorem bufPut_wf {b : Buffer α} (hb : b.wf) (i : Nat) (v : α) : Buffer.wf (bufPut b i v) := by
  induction b with
  | nil => simp [bufPut, Buffer.wf]
  | cons q rest ih =>
    obtain ⟨j, u⟩ := q
    obtain ⟨hj, hr⟩ := List.pairwise_cons.1 (show Buffer.wf ((j, u) :: rest) from hb)
    simp only [bufPut]
    split
    · rename_i hij
      refine List.pairwise_cons.2 ⟨?_, hb⟩
      intro k hk
      rcases List.mem_cons.1 hk with rfl | hk
      · exact hij
      · exact lt_trans hij (hj k hk)
    · split
      · rename_i hij; subst hij; exact hb
      · refine List.pairwise_cons.2 ⟨?_, ih hr⟩
        intro k hk
        obtain ⟨p, hp, rfl⟩ := List.mem_map.1 hk
        rcases mem_bufPut hp with rfl | hp
        · simp only; omega
        · exact hj _ (List.mem_map_of_mem hp)

theorem bufPutAll_wf {b : Buffer α} (hb : b.wf) (start : Nat) (vs : List α) : Buffer.wf (bufPutAll b start vs) := by
  induction vs generalizing b start with
  | nil => exact hb
  | cons v vs ih => exact ih (bufPut_wf hb start v) _

theorem bufTabulate_wf (n : Nat) (f : Nat → α) : Buffer.wf (bufTabulate n f) := by
  have h : (bufTabulate n f).map Prod.fst = List.range n := by simp [bufTabulate, Function.comp_def]
  rw [Buffer.wf, h]
  exact List.pairwise_lt_range

theorem indicesBelow_bufPut {n : Nat} {b : Buffer α} (hb : indicesBelow n b) {i : Nat} (hi : i < n) (v : α) :
    indicesBelow n (bufPut b i v) := by
  intro p hp
  rcases mem_bufPut hp with rfl | hp
  · exact hi
  · exact hb p hp

theorem indicesBelow_bufPutAll {n : Nat} {b : Buffer α} (hb : indicesBelow n b) (start : Nat) (vs : List α)
    (h : start + vs.length ≤ n) : indicesBelow n (bufPutAll b start vs) := by
  induction vs generalizing b start with
  | nil => exact hb
  | cons v vs ih =>
    rw [List.length_cons] at h
    exact ih (indicesBelow_bufPut hb (by omega) v) _ (by omega)

theorem indicesBelow_bufTabulate (n : Nat) (f : Nat → α) : indicesBelow n (bufTabulate n f) := by
  intro p hp
  obtain ⟨i, hi, rfl⟩ := List.mem_map.1 hp
  exact List.mem_range.1 hi

theorem filledBelow_bufTabulate (n : Nat) (f : Nat → α) : filledBelow n (bufTabulate n f) := by
  intro i hi
  rw [bufGet_bufTabulate, if_pos hi]
  rfl

theorem filledBelow_bufPutAll (b : Buffer α) (vs : List α) : filledBelow vs.length (bufPutAll b 0 vs) := by
  intro i hi
  rw [bufGet_bufPutAll, if_pos ⟨Nat.zero_le _, by omega⟩]
  simp [hi]

/-! ### MemRead, MemWrite and their whole-line forms -/

theorem memRead_eq_ok {size : Nat} {name : BufferName} {b : Buffer α} {i : Nat} {v : α} :
    memRead size name b i = .ok v ↔ i < size ∧ bufGet b i = some v := by
  unfold memRead
  split
  · split <;> simp_all
  · simp_all

theorem memRead_eq_error {size : Nat} {name : BufferName} {b : Buffer α} {i : Nat} {f : Fault} :
    memRead size name b i = .error f ↔
      (size ≤ i ∧ f = .indexOutOfRange name i) ∨ (i < size ∧ bufGet b i = none ∧ f = .noValue name i) := by
  unfold memRead
  by_cases hi : i < size
  · have hi' : ¬ size ≤ i := by omega
    cases hb : bufGet b i <;> simp [hi, hi', eq_comm]
  · have hi' : size ≤ i := by omega
    simp [hi, hi', eq_comm]

theorem memWrite_eq_ok {size : Nat} {name : BufferName} {b b' : Buffer α} {i : Nat} {v : α} :
    memWrite size name b i v = .ok b' ↔ i < size ∧ b' = bufPut b i v := by
  unfold memWrite
  split <;> simp_all [eq_comm]

theorem memWriteAll_eq_ok {size : Nat} {name : BufferName} {b b' : Buffer α} {start : Nat} {vs : List α} :
    memWriteAll size name b start vs = .ok b' ↔
      (vs = [] ∨ start + vs.length ≤ size) ∧ b' = bufPutAll b start vs := by
  induction vs generalizing b start with
  | nil => simp [memWriteAll, bufPutAll, eq_comm]
  | cons v vs ih =>
    rw [memWriteAll, bufPutAll]
    by_cases hs : start < size
    · have h : memWrite size name b start v = .ok (bufPut b start v) := memWrite_eq_ok.2 ⟨hs, rfl⟩
      rw [h]
      simp only [bind, Except.bind]
      rw [ih]
      simp only [List.length_cons, reduceCtorEq, false_or]
      constructor
      · rintro ⟨h | h, rfl⟩
        · subst h; exact ⟨by simp; omega, rfl⟩
        · exact ⟨by omega, rfl⟩
      · rintro ⟨h, rfl⟩
        exact ⟨.inr (by omega), rfl⟩
    · have h : memWrite size name b start v = .error (.indexOutOfRange name start) := by simp [memWrite, hs]
      rw [h]
      simp only [bind, Except.bind, reduceCtorEq, List.length_cons, false_or, false_iff]
      rintro ⟨h, -⟩
      omega

theorem memWriteAll_of_fits {size : Nat} {name : BufferName} {b : Buffer α} {start : Nat} {vs : List α}
    (h : start + vs.length ≤ size) : memWriteAll size name b start vs = .ok (bufPutAll b start vs) :=
  memWriteAll_eq_ok.2 ⟨.inr h, rfl⟩

theorem collect_eq_ok {f : Nat → Except Fault β} {start n : Nat} {l : List β} :
    collect f start n = .ok l ↔ l.length = n ∧ ∀ i (h : i < l.length), f (start + i) = .ok l[i] := by
  induction n generalizing start l with
  | zero =>
    simp only [collect, Except.ok.injEq]
    constructor
    · rintro rfl; simp
    · rintro ⟨h, -⟩; exact (List.length_eq_zero_iff.1 h).symm
  | succ n ih =>
    simp only [collect, bind, Except.bind]
    constructor
    · intro h
      split at h
      · cases h
      · rename_i x hx
        split at h
        · cases h
        · rename_i xs hxs
          obtain ⟨hl, he⟩ := ih.1 hxs
          cases h
          refine ⟨by simp [hl], ?_⟩
          intro i hi
          cases i with
          | zero => simpa using hx
          | succ i =>
            have hi' : i < xs.length := by simpa using hi
            have h1 : start + (i + 1) = start + 1 + i := by omega
            rw [h1]
            simpa using he i hi'
    · rintro ⟨hl, he⟩
      cases l with
      | nil => simp at hl
      | cons x xs =>
        have hx : f start = .ok x := he 0 (by simp)
        have hxs : collect f (start + 1) n = .ok xs := by
          refine ih.2 ⟨by simpa using hl, ?_⟩
          intro i hi
          have h1 : start + 1 + i = start + (i + 1) := by omega
          rw [h1]
          exact he (i + 1) (by simpa using hi)
        simp [hx, hxs]

theorem collect_of_eq {f : Nat → Except Fault β} {g : Nat → β} {start n : Nat}
    (h : ∀ i, i < n → f (start + i) = .ok (g i)) : collect f start n = .ok ((List.range n).map g) := by
  rw [collect_eq_ok]
  refine ⟨by simp, ?_⟩
  intro i hi
  rw [h i (by simpa using hi)]
  simp

theorem collect_eq_error {f : Nat → Except Fault β} {start n : Nat} {e : Fault} :
    collect f start n = .error e ↔
      ∃ k, k < n ∧ f (start + k) = .error e ∧ ∀ i, i < k → ∃ x, f (start + i) = .ok x := by
  induction n generalizing start with
  | zero => simp [collect]
  | succ n ih =>
    simp only [collect, bind, Except.bind]
    cases hx : f start with
    | error e' =>
      simp only [Except.error.injEq]
      constructor
      · rintro rfl; exact ⟨0, by omega, by simpa using hx, by simp⟩
      · rintro ⟨k, _, hk, hb⟩
        cases k with
        | zero => rw [Nat.add_zero, hx] at hk; injection hk
        | succ k =>
          obtain ⟨x, h0⟩ := hb 0 (by omega)
          rw [Nat.add_zero, hx] at h0
          cases h0
    | ok x =>
      constructor
      · intro h
        cases hxs : collect f (start + 1) n with
        | ok xs => simp [hxs] at h
        | error e' =>
          simp only [hxs, Except.error.injEq] at h
          subst h
          obtain ⟨k, hk, he, hb⟩ := ih.1 hxs
          refine ⟨k + 1, by omega, by rw [← he]; congr 1; omega, ?_⟩
          intro i hi
          cases i with
          | zero => exact ⟨x, by simpa using hx⟩
          | succ i =>
            obtain ⟨y, hy⟩ := hb i (by omega)
            exact ⟨y, by rw [← hy]; congr 1; omega⟩
      · rintro ⟨k, hk, he, hb⟩
        cases k with
        | zero => rw [Nat.add_zero, hx] at he; cases he
        | succ k =>
          have hxs : collect f (start + 1) n = .error e := by
            refine ih.2 ⟨k, by omega, by rw [← he]; congr 1; omega, ?_⟩
            intro i hi
            obtain ⟨y, hy⟩ := hb (i + 1) (by omega)
            exact ⟨y, by rw [← hy]; congr 1; omega⟩
          simp [hxs]

end Sys2Proof.Machine
end

