-- ==== Sys2Proof/Laws/Canceller.lean ====
section
/-! SUPPORT. What a run of the canceller does, said once: the answers applied block after block, the queries sent, and
whether it finishes or waits. -/

namespace Sys2Proof.Machine

variable {α : Type}

/-- The answers applied to the luma line, from block `b` on. -/
def hrcApply (N : NumFormat α) : Nat → List (List (Estimate α)) → List α → List α
  | _, [], ls => ls
  | b, a :: as, ls => hrcApply N (b + 1) as (hrcBlock N b a ls)

theorem blockInLine_iff {w : Nat} (hw : 1 ≤ w) (b : Nat) : blockInLine w b = true ↔ b < blockCount w := by
  rw [blockInLine, decide_eq_true_iff, blockCount, blockLow, hop]
  split <;> split <;> omega

theorem blockCount_pos (w : Nat) : 1 ≤ blockCount w := by
  simp only [blockCount]; split <;> omega

theorem blockCount_le {w : Nat} (hw : 1 ≤ w) : blockCount w ≤ w := by
  simp only [blockCount]; split <;> omega

theorem hrcSubtract_length (N : NumFormat α) (b : Nat) (sel : Option (Estimate α)) (ls : List α) :
    (hrcSubtract N b sel ls).length = ls.length := by
  cases sel <;> simp [hrcSubtract]

theorem hrcBlock_length (N : NumFormat α) (b : Nat) (a : List (Estimate α)) (ls : List α) :
    (hrcBlock N b a ls).length = ls.length := hrcSubtract_length N b _ ls

theorem hrcApply_length (N : NumFormat α) (b : Nat) (as : List (List (Estimate α))) (ls : List α) :
    (hrcApply N b as ls).length = ls.length := by
  induction as generalizing b ls with
  | nil => rfl
  | cons a as ih => rw [hrcApply, ih, hrcBlock_length]

theorem hrcApply_append (N : NumFormat α) (b : Nat) (as cs : List (List (Estimate α))) (ls : List α) :
    hrcApply N b (as ++ cs) ls = hrcApply N (b + as.length) cs (hrcApply N b as ls) := by
  induction as generalizing b ls with
  | nil => rfl
  | cons a as ih =>
    have h : b + 1 + as.length = b + (as.length + 1) := by omega
    rw [List.cons_append, hrcApply, ih, hrcApply, List.length_cons, h]

theorem hrcLoop_succ (N : NumFormat α) (w : Nat) (xs : List α) (fuel b : Nat) (ls : List α)
    (answers : List (List (Estimate α))) (sent : List (Query α)) :
    hrcLoop N w xs (fuel + 1) b ls answers sent =
      if blockInLine w b then
        match answers with
        | [] => .waiting b ls (sent ++ [hrcQuery N xs b])
        | a :: rest => hrcLoop N w xs fuel (b + 1) (hrcBlock N b a ls) rest (sent ++ [hrcQuery N xs b])
      else .done ls answers sent := by
  cases answers <;> rfl

/-- With answers for all the blocks left, the canceller finishes and leaves the answers it did not need. -/
theorem hrcLoop_done (N : NumFormat α) {w : Nat} (hw : 1 ≤ w) (xs : List α) {fuel b : Nat} {ls : List α}
    {answers : List (List (Estimate α))} {sent : List (Query α)} (hb : b ≤ blockCount w)
    (hf : blockCount w - b < fuel) (ha : blockCount w - b ≤ answers.length) :
    hrcLoop N w xs fuel b ls answers sent =
      .done (hrcApply N b (answers.take (blockCount w - b)) ls) (answers.drop (blockCount w - b))
        (sent ++ (List.range' b (blockCount w - b)).map (hrcQuery N xs)) := by
  induction fuel generalizing b ls answers sent with
  | zero => omega
  | succ fuel ih =>
    have hiff := blockInLine_iff hw b
    rw [hrcLoop_succ]
    by_cases hlt : b < blockCount w
    · rw [if_pos (hiff.2 hlt)]
      cases answers with
      | nil => simp only [List.length_nil] at ha; omega
      | cons a as =>
        rw [List.length_cons] at ha
        have h1 : blockCount w - b = (blockCount w - (b + 1)) + 1 := by omega
        simp only
        rw [ih (by omega) (by omega) (by omega), h1, List.take_succ_cons, List.drop_succ_cons, hrcApply,
          List.range'_succ]
        simp
    · have h0 : blockCount w - b = 0 := by omega
      rw [if_neg (fun h => hlt (hiff.1 h)), h0]
      simp [hrcApply]

/-- With fewer answers than blocks left, the canceller applies them all and waits at the block that got none. -/
theorem hrcLoop_waiting (N : NumFormat α) {w : Nat} (hw : 1 ≤ w) (xs : List α) {fuel b : Nat} {ls : List α}
    {answers : List (List (Estimate α))} {sent : List (Query α)}
    (hf : blockCount w - b < fuel) (ha : answers.length < blockCount w - b) :
    hrcLoop N w xs fuel b ls answers sent =
      .waiting (b + answers.length) (hrcApply N b answers ls)
        (sent ++ (List.range' b (answers.length + 1)).map (hrcQuery N xs)) := by
  induction fuel generalizing b ls answers sent with
  | zero => omega
  | succ fuel ih =>
    rw [hrcLoop_succ, if_pos ((blockInLine_iff hw b).2 (by omega))]
    cases answers with
    | nil => simp [hrcApply]
    | cons a as =>
      rw [List.length_cons] at ha
      have h1 : b + 1 + as.length = b + (as.length + 1) := by omega
      simp only
      have h2 : List.range' b (as.length + 1 + 1) = b :: List.range' (b + 1) (as.length + 1) := List.range'_succ
      rw [ih (by omega) (by omega), List.length_cons, h1, hrcApply, h2, List.map_cons, List.append_assoc,
        List.singleton_append]

end Sys2Proof.Machine
end

