-- ==== Sys2Proof/Laws/State.lean ====
section
/-! SUPPORT. One lemma per field per named update of State, true by rfl. -/

namespace Sys2Proof.Machine

@[simp] theorem raiseError_ctxValid (e : EngineError) (s : State) : (raiseError e s).ctxValid = s.ctxValid := rfl
@[simp] theorem raiseError_status (e : EngineError) (s : State) : (raiseError e s).status = errorCode e := rfl
@[simp] theorem raiseError_width (e : EngineError) (s : State) : (raiseError e s).width = s.width := rfl
@[simp] theorem raiseError_hmode (e : EngineError) (s : State) : (raiseError e s).hmode = s.hmode := rfl
@[simp] theorem raiseError_phase (e : EngineError) (s : State) : (raiseError e s).phase = s.phase := rfl
@[simp] theorem raiseError_fi (e : EngineError) (s : State) : (raiseError e s).fi = s.fi := rfl
@[simp] theorem raiseError_fq (e : EngineError) (s : State) : (raiseError e s).fq = s.fq := rfl
@[simp] theorem raiseError_sin (e : EngineError) (s : State) : (raiseError e s).sin = s.sin := rfl
@[simp] theorem raiseError_cos (e : EngineError) (s : State) : (raiseError e s).cos = s.cos := rfl
@[simp] theorem raiseError_cb (e : EngineError) (s : State) : (raiseError e s).cb = s.cb := rfl
@[simp] theorem raiseError_pl (e : EngineError) (s : State) : (raiseError e s).pl = s.pl := rfl
@[simp] theorem raiseError_pc (e : EngineError) (s : State) : (raiseError e s).pc = s.pc := rfl
@[simp] theorem raiseError_lineIn (e : EngineError) (s : State) : (raiseError e s).lineIn = s.lineIn := rfl
@[simp] theorem raiseError_lineOut (e : EngineError) (s : State) : (raiseError e s).lineOut = s.lineOut := rfl
@[simp] theorem raiseError_waiting (e : EngineError) (s : State) : (raiseError e s).waiting = s.waiting := rfl
@[simp] theorem raiseError_hostMoves (e : EngineError) (s : State) : (raiseError e s).hostMoves = s.hostMoves := rfl
@[simp] theorem raiseError_hostReads (e : EngineError) (s : State) : (raiseError e s).hostReads = s.hostReads := rfl
@[simp] theorem raiseError_estAnswers (e : EngineError) (s : State) : (raiseError e s).estAnswers = s.estAnswers := rfl
@[simp] theorem raiseError_estQueries (e : EngineError) (s : State) : (raiseError e s).estQueries = s.estQueries := rfl
@[simp] theorem raiseError_freeCount (e : EngineError) (s : State) : (raiseError e s).freeCount = s.freeCount := rfl
@[simp] theorem raiseError_resetCount (e : EngineError) (s : State) : (raiseError e s).resetCount = s.resetCount := rfl

@[simp] theorem hardReset_ctxValid (s : State) : (hardReset s).ctxValid = State.reset.ctxValid := rfl
@[simp] theorem hardReset_status (s : State) : (hardReset s).status = State.reset.status := rfl
@[simp] theorem hardReset_width (s : State) : (hardReset s).width = State.reset.width := rfl
@[simp] theorem hardReset_hmode (s : State) : (hardReset s).hmode = State.reset.hmode := rfl
@[simp] theorem hardReset_phase (s : State) : (hardReset s).phase = State.reset.phase := rfl
@[simp] theorem hardReset_fi (s : State) : (hardReset s).fi = State.reset.fi := rfl
@[simp] theorem hardReset_fq (s : State) : (hardReset s).fq = State.reset.fq := rfl
@[simp] theorem hardReset_sin (s : State) : (hardReset s).sin = State.reset.sin := rfl
@[simp] theorem hardReset_cos (s : State) : (hardReset s).cos = State.reset.cos := rfl
@[simp] theorem hardReset_cb (s : State) : (hardReset s).cb = State.reset.cb := rfl
@[simp] theorem hardReset_pl (s : State) : (hardReset s).pl = State.reset.pl := rfl
@[simp] theorem hardReset_pc (s : State) : (hardReset s).pc = State.reset.pc := rfl
@[simp] theorem hardReset_lineIn (s : State) : (hardReset s).lineIn = State.reset.lineIn := rfl
@[simp] theorem hardReset_lineOut (s : State) : (hardReset s).lineOut = State.reset.lineOut := rfl
@[simp] theorem hardReset_waiting (s : State) : (hardReset s).waiting = State.reset.waiting := rfl
@[simp] theorem hardReset_hostMoves (s : State) : (hardReset s).hostMoves = s.hostMoves := rfl
@[simp] theorem hardReset_hostReads (s : State) : (hardReset s).hostReads = s.hostReads := rfl
@[simp] theorem hardReset_estAnswers (s : State) : (hardReset s).estAnswers = s.estAnswers := rfl
@[simp] theorem hardReset_estQueries (s : State) : (hardReset s).estQueries = s.estQueries := rfl
@[simp] theorem hardReset_freeCount (s : State) : (hardReset s).freeCount = s.freeCount := rfl
@[simp] theorem hardReset_resetCount (s : State) : (hardReset s).resetCount = s.resetCount + 1 := rfl

@[simp] theorem withCommand_ctxValid (c : CommandWord) (s : State) : (withCommand s c).ctxValid = s.ctxValid := rfl
@[simp] theorem withCommand_status (c : CommandWord) (s : State) : (withCommand s c).status = s.status := rfl
@[simp] theorem withCommand_width (c : CommandWord) (s : State) : (withCommand s c).width = s.width := rfl
@[simp] theorem withCommand_hmode (c : CommandWord) (s : State) : (withCommand s c).hmode = s.hmode := rfl
@[simp] theorem withCommand_phase (c : CommandWord) (s : State) : (withCommand s c).phase = s.phase := rfl
@[simp] theorem withCommand_fi (c : CommandWord) (s : State) : (withCommand s c).fi = s.fi := rfl
@[simp] theorem withCommand_fq (c : CommandWord) (s : State) : (withCommand s c).fq = s.fq := rfl
@[simp] theorem withCommand_sin (c : CommandWord) (s : State) : (withCommand s c).sin = s.sin := rfl
@[simp] theorem withCommand_cos (c : CommandWord) (s : State) : (withCommand s c).cos = s.cos := rfl
@[simp] theorem withCommand_cb (c : CommandWord) (s : State) : (withCommand s c).cb = s.cb := rfl
@[simp] theorem withCommand_pl (c : CommandWord) (s : State) : (withCommand s c).pl = s.pl := rfl
@[simp] theorem withCommand_pc (c : CommandWord) (s : State) : (withCommand s c).pc = s.pc := rfl
@[simp] theorem withCommand_lineIn (c : CommandWord) (s : State) : (withCommand s c).lineIn = s.lineIn := rfl
@[simp] theorem withCommand_lineOut (c : CommandWord) (s : State) : (withCommand s c).lineOut = s.lineOut := rfl
@[simp] theorem withCommand_waiting (c : CommandWord) (s : State) : (withCommand s c).waiting = none := rfl
@[simp] theorem withCommand_hostMoves (c : CommandWord) (s : State) : (withCommand s c).hostMoves = .command c :: s.hostMoves := rfl
@[simp] theorem withCommand_hostReads (c : CommandWord) (s : State) : (withCommand s c).hostReads = s.hostReads := rfl
@[simp] theorem withCommand_estAnswers (c : CommandWord) (s : State) : (withCommand s c).estAnswers = s.estAnswers := rfl
@[simp] theorem withCommand_estQueries (c : CommandWord) (s : State) : (withCommand s c).estQueries = s.estQueries := rfl
@[simp] theorem withCommand_freeCount (c : CommandWord) (s : State) : (withCommand s c).freeCount = s.freeCount := rfl
@[simp] theorem withCommand_resetCount (c : CommandWord) (s : State) : (withCommand s c).resetCount = s.resetCount := rfl

@[simp] theorem createContext_ctxValid (P : Params Number) (width : Nat) (h : BitVec 1) (s : State) : (createContext P width h s).ctxValid = 1 := rfl
@[simp] theorem createContext_status (P : Params Number) (width : Nat) (h : BitVec 1) (s : State) : (createContext P width h s).status = statusOk := rfl
@[simp] theorem createContext_width (P : Params Number) (width : Nat) (h : BitVec 1) (s : State) : (createContext P width h s).width = BitVec.ofNat 16 width := rfl
@[simp] theorem createContext_hmode (P : Params Number) (width : Nat) (h : BitVec 1) (s : State) : (createContext P width h s).hmode = h := rfl
@[simp] theorem createContext_phase (P : Params Number) (width : Nat) (h : BitVec 1) (s : State) : (createContext P width h s).phase = 0 := rfl
@[simp] theorem createContext_fi (P : Params Number) (width : Nat) (h : BitVec 1) (s : State) : (createContext P width h s).fi = bqInit P.num (fcI P.num) := rfl
@[simp] theorem createContext_fq (P : Params Number) (width : Nat) (h : BitVec 1) (s : State) : (createContext P width h s).fq = bqInit P.num (fcQ P.num) := rfl
@[simp] theorem createContext_sin (P : Params Number) (width : Nat) (h : BitVec 1) (s : State) : (createContext P width h s).sin = cgenSin P.num width := rfl
@[simp] theorem createContext_cos (P : Params Number) (width : Nat) (h : BitVec 1) (s : State) : (createContext P width h s).cos = cgenCos P.num width := rfl
@[simp] theorem createContext_cb (P : Params Number) (width : Nat) (h : BitVec 1) (s : State) : (createContext P width h s).cb = s.cb := rfl
@[simp] theorem createContext_pl (P : Params Number) (width : Nat) (h : BitVec 1) (s : State) : (createContext P width h s).pl = bufTabulate width P.histResetL := rfl
@[simp] theorem createContext_pc (P : Params Number) (width : Nat) (h : BitVec 1) (s : State) : (createContext P width h s).pc = bufTabulate width P.histResetC := rfl
@[simp] theorem createContext_lineIn (P : Params Number) (width : Nat) (h : BitVec 1) (s : State) : (createContext P width h s).lineIn = s.lineIn := rfl
@[simp] theorem createContext_lineOut (P : Params Number) (width : Nat) (h : BitVec 1) (s : State) : (createContext P width h s).lineOut = s.lineOut := rfl
@[simp] theorem createContext_waiting (P : Params Number) (width : Nat) (h : BitVec 1) (s : State) : (createContext P width h s).waiting = s.waiting := rfl
@[simp] theorem createContext_hostMoves (P : Params Number) (width : Nat) (h : BitVec 1) (s : State) : (createContext P width h s).hostMoves = s.hostMoves := rfl
@[simp] theorem createContext_hostReads (P : Params Number) (width : Nat) (h : BitVec 1) (s : State) : (createContext P width h s).hostReads = s.hostReads := rfl
@[simp] theorem createContext_estAnswers (P : Params Number) (width : Nat) (h : BitVec 1) (s : State) : (createContext P width h s).estAnswers = s.estAnswers := rfl
@[simp] theorem createContext_estQueries (P : Params Number) (width : Nat) (h : BitVec 1) (s : State) : (createContext P width h s).estQueries = s.estQueries := rfl
@[simp] theorem createContext_freeCount (P : Params Number) (width : Nat) (h : BitVec 1) (s : State) : (createContext P width h s).freeCount = s.freeCount := rfl
@[simp] theorem createContext_resetCount (P : Params Number) (width : Nat) (h : BitVec 1) (s : State) : (createContext P width h s).resetCount = s.resetCount := rfl

@[simp] theorem destroyContext_ctxValid (s : State) : (destroyContext s).ctxValid = 0 := rfl
@[simp] theorem destroyContext_status (s : State) : (destroyContext s).status = statusOk := rfl
@[simp] theorem destroyContext_width (s : State) : (destroyContext s).width = Config.freeWidth s.freeCount := rfl
@[simp] theorem destroyContext_hmode (s : State) : (destroyContext s).hmode = Config.freeBit s.freeCount 0 := rfl
@[simp] theorem destroyContext_phase (s : State) : (destroyContext s).phase = Config.freeBit s.freeCount 1 := rfl
@[simp] theorem destroyContext_fi (s : State) : (destroyContext s).fi = freeBiquad s.freeCount 0 := rfl
@[simp] theorem destroyContext_fq (s : State) : (destroyContext s).fq = freeBiquad s.freeCount 7 := rfl
@[simp] theorem destroyContext_sin (s : State) : (destroyContext s).sin = [] := rfl
@[simp] theorem destroyContext_cos (s : State) : (destroyContext s).cos = [] := rfl
@[simp] theorem destroyContext_cb (s : State) : (destroyContext s).cb = [] := rfl
@[simp] theorem destroyContext_pl (s : State) : (destroyContext s).pl = [] := rfl
@[simp] theorem destroyContext_pc (s : State) : (destroyContext s).pc = [] := rfl
@[simp] theorem destroyContext_lineIn (s : State) : (destroyContext s).lineIn = s.lineIn := rfl
@[simp] theorem destroyContext_lineOut (s : State) : (destroyContext s).lineOut = s.lineOut := rfl
@[simp] theorem destroyContext_waiting (s : State) : (destroyContext s).waiting = s.waiting := rfl
@[simp] theorem destroyContext_hostMoves (s : State) : (destroyContext s).hostMoves = s.hostMoves := rfl
@[simp] theorem destroyContext_hostReads (s : State) : (destroyContext s).hostReads = s.hostReads := rfl
@[simp] theorem destroyContext_estAnswers (s : State) : (destroyContext s).estAnswers = s.estAnswers := rfl
@[simp] theorem destroyContext_estQueries (s : State) : (destroyContext s).estQueries = s.estQueries := rfl
@[simp] theorem destroyContext_freeCount (s : State) : (destroyContext s).freeCount = s.freeCount + 1 := rfl
@[simp] theorem destroyContext_resetCount (s : State) : (destroyContext s).resetCount = s.resetCount := rfl

@[simp] theorem errorCode_ne_ok (e : EngineError) : errorCode e ≠ statusOk := by cases e <;> decide

theorem errorCode_le_four (e : EngineError) : (errorCode e).toNat ≤ 4 := by cases e <;> decide

end Sys2Proof.Machine
end

