-- ==== Sys2Proof/Laws/Commands.lean ====
section
/-! SUPPORT. What each command and each kind of step can do, one inversion lemma each. -/

namespace Sys2Proof.Machine

theorem ctxValid_cases (s : State) : s.ctxValid = 0 ∨ s.ctxValid = 1 := by
  have h := s.ctxValid.isLt
  rcases Nat.lt_or_ge s.ctxValid.toNat 1 with h0 | h1
  · exact .inl (BitVec.eq_of_toNat_eq (show s.ctxValid.toNat = 0 by omega))
  · exact .inr (BitVec.eq_of_toNat_eq (show s.ctxValid.toNat = 1 by omega))

theorem widthMax_bounds (P : Params Number) : 3 ≤ P.widthMax ∧ P.widthMax ≤ 65534 := by
  have h := P.widthMaxAboveThree.isLt
  have hd : P.widthMax = 3 + P.widthMaxAboveThree.val := rfl
  omega

theorem outcomeOf_eq_next {r : Except Fault State} {t : State} : outcomeOf r = .next t ↔ r = .ok t := by
  cases r <;> simp [outcomeOf]

theorem outcomeOf_eq_fault {r : Except Fault State} {f : Fault} : outcomeOf r = .fault f ↔ r = .error f := by
  cases r <;> simp [outcomeOf]

theorem requireFinite_eq_next {ok : Bool} {r : Except Fault State} {t : State} :
    requireFinite ok r = .next t ↔ ok = true ∧ r = .ok t := by
  cases ok <;> simp [requireFinite, outcomeOf_eq_next]

theorem requireFinite_eq_fault {ok : Bool} {r : Except Fault State} {f : Fault} :
    requireFinite ok r = .fault f ↔ ok = true ∧ r = .error f := by
  cases ok <;> simp [requireFinite, outcomeOf_eq_fault]

theorem encodeWith_no_context (P : Params Number) {s : State} (h : s.ctxValid = 0) :
    encodeWith P s = .next (raiseError .contract s) := if_pos h

theorem encodeWith_context (P : Params Number) {s : State} (h : s.ctxValid = 1) :
    encodeWith P s = requireFinite (encodeFinite P s) (encodeContext P s) := if_neg (by rw [h]; decide)

theorem decodeWith_no_context (P : Params Number) {s : State} (h : s.ctxValid = 0) :
    decodeWith P s = .next (raiseError .contract s) := if_pos h

theorem decodeWith_context (P : Params Number) {s : State} (h : s.ctxValid = 1) :
    decodeWith P s = requireFinite (decodeFinite P s) (decodeContext P s) := if_neg (by rw [h]; decide)

theorem execDestroy_no_context {s : State} (h : s.ctxValid = 0) :
    execDestroy s = .next (raiseError .contract s) := if_pos h

theorem execDestroy_context {s : State} (h : s.ctxValid = 1) :
    execDestroy s = .next (destroyContext s) := if_neg (by rw [h]; decide)

theorem createWith_context (P : Params Number) (width : Nat) (h : BitVec 1) {s : State} (hv : s.ctxValid = 1) :
    createWith P width h s = .next (raiseError .contract s) := if_pos hv

theorem createWith_no_context (P : Params Number) (width : Nat) (h : BitVec 1) {s : State} (hv : s.ctxValid = 0) :
    createWith P width h s =
      if widthLimit ≤ width then .next (raiseError .createWidth s)
      else if width < 3 then .refused (.widthBelowThree width)
      else if P.widthMax < width then .next (raiseError .createStorage s)
      else requireFinite (createFinite P.num width) (.ok (createContext P width h s)) := if_neg (by rw [hv]; decide)

theorem createWith_builds (P : Params Number) {width : Nat} (h : BitVec 1) {s : State} (hv : s.ctxValid = 0)
    (h3 : 3 ≤ width) (hm : width ≤ P.widthMax) (hf : createFinite P.num width = true) :
    createWith P width h s = .next (createContext P width h s) := by
  have hb := widthMax_bounds P
  rw [createWith_no_context P width h hv, if_neg (by simp only [widthLimit]; omega), if_neg (by omega), if_neg (by omega),
    hf]
  rfl

/-- Everything CREATE can do when it answers a next state. -/
theorem createWith_eq_next {P : Params Number} {width : Nat} {h : BitVec 1} {s t : State}
    (hc : createWith P width h s = .next t) :
    (∃ e, t = raiseError e s) ∨
      (s.ctxValid = 0 ∧ 3 ≤ width ∧ width ≤ P.widthMax ∧ createFinite P.num width = true ∧
        t = createContext P width h s) := by
  rcases ctxValid_cases s with hv | hv
  · rw [createWith_no_context P width h hv] at hc
    split at hc
    · cases hc; exact .inl ⟨_, rfl⟩
    · split at hc
      · cases hc
      · split at hc
        · cases hc; exact .inl ⟨_, rfl⟩
        · obtain ⟨hf, ht⟩ := requireFinite_eq_next.1 hc
          cases ht
          exact .inr ⟨hv, by omega, by omega, hf, rfl⟩
  · rw [createWith_context P width h hv] at hc
    cases hc
    exact .inl ⟨_, rfl⟩

theorem createWith_ne_fault {P : Params Number} {width : Nat} {h : BitVec 1} {s : State} {f : Fault} :
    createWith P width h s ≠ .fault f := by
  intro hc
  rcases ctxValid_cases s with hv | hv
  · rw [createWith_no_context P width h hv] at hc
    repeat' split at hc
    all_goals first
      | cases hc
      | cases (requireFinite_eq_fault.1 hc).2
  · rw [createWith_context P width h hv] at hc
    cases hc

/-! ### The engine of `exec` and `step` is the engine with the open parameters `Config.params` -/

theorem exec_eq (i : Instr) (s : State) : exec i s = execWith Config.params i s := by cases i <;> rfl

theorem step_eq (s : State) : step s = engineStep Config.params s :=
  congrArg (fun run => stepWith Config.params run s) (funext fun i => funext fun t => exec_eq i t)

/-! ### A step, whatever executes its commands -/

section
variable {P : Params Number} {run : Execution}

/-- A step of the idle engine is its next host move. -/
theorem step_of_idle {s : State} {m : HostMove} {rest : List HostMove} (hw : s.waiting = none)
    (hm : s.hostMoves = m :: rest) : stepWith P run s = hostMove P run m { s with hostMoves := rest } := by
  simp only [stepWith, hw, idleStep, hm]

theorem step_of_no_move {s : State} (hw : s.waiting = none) (hm : s.hostMoves = []) : stepWith P run s = .next s := by
  simp only [stepWith, hw, idleStep, hm]

theorem step_of_waiting_reset {s : State} {d : Waiting} {rest : List HostMove} (hw : s.waiting = some d)
    (hm : s.hostMoves = .reset :: rest) : stepWith P run s = .next (hardReset { s with hostMoves := rest }) := by
  simp only [stepWith, hw, waitingStep, hm]

theorem step_of_waiting_answer {s : State} {d : Waiting} {a : List (Estimate Number)}
    {as : List (List (Estimate Number))} (hw : s.waiting = some d) (hm : s.hostMoves.head? ≠ some .reset)
    (ha : s.estAnswers = a :: as) :
    stepWith P run s = requireFinite (resumeFinite P s d a as) (decodeResume P s d a as) := by
  simp only [stepWith, hw, waitingStep]
  split
  · rename_i h; rw [h] at hm; exact absurd rfl hm
  · simp only [ha]

theorem step_of_waiting_silence {s : State} {d : Waiting} (hw : s.waiting = some d)
    (hm : s.hostMoves.head? ≠ some .reset) (ha : s.estAnswers = []) : stepWith P run s = .fault .estimatorNeverAnswers := by
  simp only [stepWith, hw, waitingStep]
  split
  · rename_i h; rw [h] at hm; exact absurd rfl hm
  · simp only [ha]

/-- Everything a step can do when it answers a next state. -/
theorem step_eq_next {s t : State} (h : stepWith P run s = .next t) :
    (s.waiting = none ∧ s.hostMoves = [] ∧ t = s) ∨
    (∃ m rest, s.waiting = none ∧ s.hostMoves = m :: rest ∧
      hostMove P run m { s with hostMoves := rest } = .next t) ∨
    (∃ d rest, s.waiting = some d ∧ s.hostMoves = .reset :: rest ∧ t = hardReset { s with hostMoves := rest }) ∨
    (∃ d a as, s.waiting = some d ∧ s.estAnswers = a :: as ∧ s.hostMoves.head? ≠ some .reset ∧
      resumeFinite P s d a as = true ∧ decodeResume P s d a as = .ok t) := by
  rcases Option.eq_none_or_eq_some s.waiting with hw | ⟨d, hw⟩
  · cases hm : s.hostMoves with
    | nil => rw [step_of_no_move hw hm] at h; cases h; exact .inl ⟨hw, rfl, rfl⟩
    | cons m rest => rw [step_of_idle hw hm] at h; exact .inr (.inl ⟨m, rest, hw, rfl, h⟩)
  · by_cases hr : s.hostMoves.head? = some .reset
    · cases hm : s.hostMoves with
      | nil => rw [hm] at hr; cases hr
      | cons m rest =>
        rw [hm] at hr
        obtain rfl : m = .reset := by simpa using hr
        rw [step_of_waiting_reset hw hm] at h
        cases h
        exact .inr (.inr (.inl ⟨d, rest, hw, rfl, rfl⟩))
    · cases ha : s.estAnswers with
      | nil => rw [step_of_waiting_silence hw hr ha] at h; cases h
      | cons a as =>
        rw [step_of_waiting_answer hw hr ha, requireFinite_eq_next] at h
        exact .inr (.inr (.inr ⟨d, a, as, hw, rfl, hr, h⟩))

/-- Everything a host move can do when it answers a next state. -/
theorem hostMove_eq_next {m : HostMove} {s t : State} (h : hostMove P run m s = .next t) :
    (m = .reset ∧ t = hardReset s) ∨
    (∃ c, m = .command c ∧ issueCommand run c s = .next t) ∨
    (∃ k v, m = .writeLineIn k v ∧ k < lineCapacity P ∧ t = { s with lineIn := bufPut s.lineIn k v }) ∨
    (∃ r n, (∀ c, m ≠ .command c) ∧ m ≠ .reset ∧ t = { s with hostReads := r :: s.hostReads, freeCount := n }) := by
  cases m with
  | reset => cases h; exact .inl ⟨rfl, rfl⟩
  | command c => exact .inr (.inl ⟨c, rfl, h⟩)
  | writeLineIn k v =>
    simp only [hostMove, hostWriteLineIn] at h
    split at h
    · cases h; exact .inr (.inr (.inl ⟨k, v, rfl, ‹_›, rfl⟩))
    · cases h
  | readLineOut k =>
    refine .inr (.inr (.inr ?_))
    simp only [hostMove, hostReadLineOut] at h
    split at h
    · cases h; exact ⟨_, s.freeCount, by simp, by simp, rfl⟩
    · cases h
  | readControl n =>
    refine .inr (.inr (.inr ?_))
    simp only [hostMove, hostReadControl] at h
    split at h
    · cases h; exact ⟨_, _, by simp, by simp, rfl⟩
    · cases h

/-- A command word either runs its command or raises ERR_ILLEGAL. -/
theorem issueCommand_eq_next {c : CommandWord} {s t : State} (h : issueCommand run c s = .next t) :
    (∃ i, decode c = .ok i ∧ run i s = .next t) ∨ t = raiseError .illegal s := by
  unfold issueCommand at h
  split at h
  · exact .inl ⟨_, ‹_›, h⟩
  · cases h; exact .inr rfl

end

end Sys2Proof.Machine
end

