-- ==== Sys2Proof/Laws/Decode.lean ====
section
/-! SUPPORT. The fields of a command word, the decoder and the encoder as arithmetic on the word's number. -/

namespace Sys2Proof

theorem append_toNat {n m : Nat} (x : BitVec n) (y : BitVec m) : (x ++ y).toNat = x.toNat * 2 ^ m + y.toNat := by
  rw [BitVec.toNat_append, ← Nat.shiftLeft_add_eq_or_of_lt y.isLt, Nat.shiftLeft_eq]

theorem encode_create_toNat (width : Nat) (h : BitVec 1) :
    (encode (.create width h)).toNat = 2 ^ 28 + h.toNat * 2 ^ 24 + width % 2 ^ 24 := by
  have h1 : h.toNat < 2 := h.isLt
  simp only [encode, append_toNat, BitVec.toNat_ofNat, Nat.reducePow, Nat.reduceMod, Nat.reduceMul]
  omega

theorem opField_toNat (c : CommandWord) : (opField c).toNat = c.toNat / 2 ^ 28 := by
  have := c.isLt
  simp only [opField, BitVec.extractLsb'_toNat, Nat.shiftRight_eq_div_pow]
  omega

theorem zero3Field_toNat (c : CommandWord) : (zero3Field c).toNat = c.toNat / 2 ^ 25 % 8 := by
  simp only [zero3Field, BitVec.extractLsb'_toNat, Nat.shiftRight_eq_div_pow]

theorem hField_toNat (c : CommandWord) : (hField c).toNat = c.toNat / 2 ^ 24 % 2 := by
  simp only [hField, BitVec.extractLsb'_toNat, Nat.shiftRight_eq_div_pow]

theorem widthField_eq (c : CommandWord) : widthField c = c.toNat % 2 ^ 24 := by
  simp only [widthField, BitVec.extractLsb'_toNat, Nat.shiftRight_zero]

theorem zero28Field_toNat (c : CommandWord) : (zero28Field c).toNat = c.toNat % 2 ^ 28 := by
  simp only [zero28Field, BitVec.extractLsb'_toNat, Nat.shiftRight_zero]

theorem opField_eq (c : CommandWord) (k : BitVec 4) : opField c = k ↔ c.toNat / 2 ^ 28 = k.toNat := by
  rw [← BitVec.toNat_inj, opField_toNat]

theorem zero3Field_eq_zero (c : CommandWord) : zero3Field c = 0 ↔ c.toNat / 2 ^ 25 % 8 = 0 := by
  rw [← BitVec.toNat_inj, zero3Field_toNat]; rfl

theorem zero28Field_eq_zero (c : CommandWord) : zero28Field c = 0 ↔ c.toNat % 2 ^ 28 = 0 := by
  rw [← BitVec.toNat_inj, zero28Field_toNat]; rfl

/-- The decoder over the word's number, the fields written out. -/
theorem decode_eq (c : CommandWord) :
    decode c =
      if c.toNat / 2 ^ 28 = 1 then
        if c.toNat / 2 ^ 25 % 8 = 0 then .ok (.create (c.toNat % 2 ^ 24) (hField c)) else .error .zero3
      else if c.toNat / 2 ^ 28 = 2 then if c.toNat % 2 ^ 28 = 0 then .ok .encode else .error .zero28
      else if c.toNat / 2 ^ 28 = 3 then if c.toNat % 2 ^ 28 = 0 then .ok .decode else .error .zero28
      else if c.toNat / 2 ^ 28 = 4 then if c.toNat % 2 ^ 28 = 0 then .ok .destroy else .error .zero28
      else .error .op := by
  unfold decode decodeZ
  simp only [opField_eq, zero3Field_eq_zero, zero28Field_eq_zero, widthField_eq]
  rfl

theorem decode_eq_create {c : CommandWord} {width : Nat} {h : BitVec 1} :
    decode c = .ok (.create width h) ↔ c.toNat / 2 ^ 25 = 8 ∧ width = c.toNat % 2 ^ 24 ∧ h = hField c := by
  rw [decode_eq]
  have := c.isLt
  repeat' split
  all_goals simp only [Except.ok.injEq, Instr.create.injEq, reduceCtorEq, false_iff]
  all_goals first
    | (have h8 : c.toNat / 2 ^ 25 = 8 := by omega
       exact ⟨fun ⟨a, b⟩ => ⟨h8, a.symm, b.symm⟩, fun ⟨_, a, b⟩ => ⟨a.symm, b.symm⟩⟩)
    | (rintro ⟨h8, -⟩; omega)

theorem decode_eq_encode {c : CommandWord} : decode c = .ok .encode ↔ c = 0x20000000#32 := by
  rw [decode_eq, ← BitVec.toNat_inj]
  have := c.isLt
  repeat' split
  all_goals simp only [Except.ok.injEq, reduceCtorEq, false_iff, true_iff, BitVec.toNat_ofNat]
  all_goals omega

theorem decode_eq_decode {c : CommandWord} : decode c = .ok .decode ↔ c = 0x30000000#32 := by
  rw [decode_eq, ← BitVec.toNat_inj]
  have := c.isLt
  repeat' split
  all_goals simp only [Except.ok.injEq, reduceCtorEq, false_iff, true_iff, BitVec.toNat_ofNat]
  all_goals omega

theorem decode_eq_destroy {c : CommandWord} : decode c = .ok .destroy ↔ c = 0x40000000#32 := by
  rw [decode_eq, ← BitVec.toNat_inj]
  have := c.isLt
  repeat' split
  all_goals simp only [Except.ok.injEq, reduceCtorEq, false_iff, true_iff, BitVec.toNat_ofNat]
  all_goals omega

end Sys2Proof
end

