-- ==== Sys2Proof/Laws/Filter.lean ====
section
/-! SUPPORT. What a run of a filter and a line through it are. -/

namespace Sys2Proof.Machine

variable {α : Type}

theorem bqRun_append (N : NumFormat α) (F : Biquad α) (xs ys : List α) :
    bqRun N F (xs ++ ys) =
      ((bqRun N F xs).1 ++ (bqRun N (bqRun N F xs).2 ys).1, (bqRun N (bqRun N F xs).2 ys).2) := by
  induction xs generalizing F with
  | nil => rfl
  | cons x xs ih => simp only [List.cons_append, bqRun, ih]

theorem bqRun_length (N : NumFormat α) (F : Biquad α) (xs : List α) : (bqRun N F xs).1.length = xs.length := by
  induction xs generalizing F with
  | nil => rfl
  | cons x xs ih => simp only [bqRun, List.length_cons, ih]

theorem bqRun_coefficients (N : NumFormat α) (F : Biquad α) (xs : List α) :
    (bqRun N F xs).2.a0 = F.a0 ∧ (bqRun N F xs).2.a1 = F.a1 ∧ (bqRun N F xs).2.a2 = F.a2 ∧
      (bqRun N F xs).2.b1 = F.b1 ∧ (bqRun N F xs).2.b2 = F.b2 := by
  induction xs generalizing F with
  | nil => exact ⟨rfl, rfl, rfl, rfl, rfl⟩
  | cons x xs ih => exact ih _

/-- A line of at least `SHIFT` samples is one stream: the samples and three zeros, the first three outputs discarded. -/
theorem filterLine_eq (N : NumFormat α) (F : Biquad α) {xs : List α} (h : 3 ≤ xs.length) :
    filterLine N F xs =
      ((bqRun N F (xs ++ List.replicate 3 (numZero N))).1.drop 3,
       (bqRun N F (xs ++ List.replicate 3 (numZero N))).2) := by
  have hx : xs ++ List.replicate 3 (numZero N) =
      xs.take shift ++ (xs.drop shift ++ List.replicate shift (numZero N)) := by
    rw [← List.append_assoc, List.take_append_drop]; rfl
  have hl : (bqRun N F (xs.take shift)).1.length = 3 := by
    rw [bqRun_length, List.length_take, shift]; omega
  rw [hx, bqRun_append, bqRun_append, ← hl, List.drop_left]
  rfl

theorem filterLine_length (N : NumFormat α) (F : Biquad α) {xs : List α} (h : 3 ≤ xs.length) :
    (filterLine N F xs).1.length = xs.length := by
  rw [filterLine_eq N F h, List.length_drop, bqRun_length, List.length_append, List.length_replicate]
  omega

/-- The filter after a line is the filter after `BQ.PROCESS` on the line and three zeros. -/
theorem filterLine_state (N : NumFormat α) (F : Biquad α) {xs : List α} (h : 3 ≤ xs.length) :
    (filterLine N F xs).2 = (bqRun N F (xs ++ List.replicate 3 (numZero N))).2 := by
  rw [filterLine_eq N F h]

theorem filterLine_coefficients (N : NumFormat α) (F : Biquad α) (xs : List α) :
    (filterLine N F xs).2.a0 = F.a0 ∧ (filterLine N F xs).2.a1 = F.a1 ∧ (filterLine N F xs).2.a2 = F.a2 ∧
      (filterLine N F xs).2.b1 = F.b1 ∧ (filterLine N F xs).2.b2 = F.b2 := by
  have h1 := bqRun_coefficients N F (xs.take shift)
  have h2 := bqRun_coefficients N (bqRun N F (xs.take shift)).2 (xs.drop shift)
  have h3 := bqRun_coefficients N (bqRun N (bqRun N F (xs.take shift)).2 (xs.drop shift)).2
    (List.replicate shift (numZero N))
  obtain ⟨a1, a2, a3, a4, a5⟩ := h1
  obtain ⟨b1, b2, b3, b4, b5⟩ := h2
  obtain ⟨c1, c2, c3, c4, c5⟩ := h3
  exact ⟨c1.trans (b1.trans a1), c2.trans (b2.trans a2), c3.trans (b3.trans a3), c4.trans (b4.trans a4),
    c5.trans (b5.trans a5)⟩

/-! ### A line as one stream -/

theorem filterLine_stream (N : NumFormat α) (F : Biquad α) {w : Nat} (h3 : 3 ≤ w) (f : Nat → α) :
    (filterLine N F ((List.range w).map f)).2 = (bqRun N F (lineStream N w f)).2 := by
  rw [filterLine_eq _ _ (by simpa using h3)]; rfl

theorem filterLine_getElem? (N : NumFormat α) (F : Biquad α) {w : Nat} (h3 : 3 ≤ w) (f : Nat → α) {j : Nat}
    (hj : j < w) : (filterLine N F ((List.range w).map f)).1[j]? = some (lineOutput N F w f j) := by
  have hlen := bqRun_length N F (lineStream N w f)
  have hw : (lineStream N w f).length = w + 3 := by simp [lineStream]
  have hin : 3 + j < (bqRun N F (lineStream N w f)).1.length := by omega
  rw [filterLine_eq _ _ (by simpa using h3), lineOutput, List.getD_eq_getElem?_getD, Nat.add_comm j 3]
  show (List.drop 3 (bqRun N F (lineStream N w f)).1)[j]? = _
  rw [List.getElem?_drop, List.getElem?_eq_getElem hin]; rfl

end Sys2Proof.Machine
end

