-- ==== Sys2Proof/Laws/Lines.lean ====
section
/-! SUPPORT. What the line commands read, compute and write, one inversion lemma each. -/

namespace Sys2Proof.Machine

variable {α : Type}

theorem phase_le_one (p : BitVec 1) : p.toNat ≤ 1 := by have := p.isLt; omega

/-! ### Reading a line -/

theorem readSamples_length {P : Params Number} {s : State} {l : List Number} (h : readSamples P s = .ok l) :
    l.length = lineWidth s := (collect_eq_ok.1 h).1

theorem readPixels_length {P : Params Number} {s : State} {l : List (Number × Number × Number)}
    (h : readPixels P s = .ok l) : l.length = lineWidth s := (collect_eq_ok.1 h).1

theorem readHistory_length {name : BufferName} {b : Buffer Number} {s : State} {l : List Number}
    (h : readHistory name b s = .ok l) : l.length = lineWidth s := (collect_eq_ok.1 h).1

theorem cgenWindow_length {name : BufferName} {table : Buffer α} {phase : BitVec 1} {w : Nat} {l : List α}
    (h : cgenWindow name table phase w = .ok l) : l.length = w := (collect_eq_ok.1 h).1

theorem readWindows_eq_ok {s : State} {sw cw : List Number} :
    readWindows s = .ok (sw, cw) ↔
      cgenWindow .sin s.sin s.phase (lineWidth s) = .ok sw ∧ cgenWindow .cos s.cos s.phase (lineWidth s) = .ok cw := by
  simp only [readWindows, bind, Except.bind]
  cases cgenWindow .sin s.sin s.phase (lineWidth s) with
  | error f => simp
  | ok a => cases cgenWindow .cos s.cos s.phase (lineWidth s) <;> simp

theorem readSamples_get {P : Params Number} {s : State} {l : List Number} (h : readSamples P s = .ok l) {i : Nat}
    (hi : i < lineWidth s) : i < lineCapacity P ∧ bufGet s.lineIn i = l[i]? := by
  obtain ⟨hl, he⟩ := collect_eq_ok.1 h
  have h1 := memRead_eq_ok.1 (he i (by omega))
  rw [Nat.zero_add] at h1
  exact ⟨h1.1, by rw [h1.2, List.getElem?_eq_getElem (by omega)]⟩

theorem readSamples_of_get {P : Params Number} {s : State} {x : Nat → Number} (hc : lineWidth s ≤ lineCapacity P)
    (h : ∀ i, i < lineWidth s → bufGet s.lineIn i = some (x i)) :
    readSamples P s = .ok ((List.range (lineWidth s)).map x) := by
  refine collect_of_eq ?_
  intro i hi
  rw [Nat.zero_add]
  exact memRead_eq_ok.2 ⟨by omega, h i hi⟩

theorem readPixels_of_get {P : Params Number} {s : State} {x : Nat → Number} (hc : 3 * lineWidth s ≤ lineCapacity P)
    (h : ∀ i, i < 3 * lineWidth s → bufGet s.lineIn i = some (x i)) :
    readPixels P s = .ok ((List.range (lineWidth s)).map fun i => (x (3 * i), x (3 * i + 1), x (3 * i + 2))) := by
  refine collect_of_eq ?_
  intro i hi
  have h0 : readLineIn P s (3 * i) = .ok (x (3 * i)) := memRead_eq_ok.2 ⟨by omega, h _ (by omega)⟩
  have h1 : readLineIn P s (3 * i + 1) = .ok (x (3 * i + 1)) := memRead_eq_ok.2 ⟨by omega, h _ (by omega)⟩
  have h2 : readLineIn P s (3 * i + 2) = .ok (x (3 * i + 2)) := memRead_eq_ok.2 ⟨by omega, h _ (by omega)⟩
  rw [Nat.zero_add]
  simp only [readPixel, bind, Except.bind, h0, h1, h2]

theorem readHistory_of_get {name : BufferName} {b : Buffer Number} {s : State} {x : Nat → Number}
    (h : ∀ i, i < lineWidth s → bufGet b i = some (x i)) :
    readHistory name b s = .ok ((List.range (lineWidth s)).map x) := by
  refine collect_of_eq ?_
  intro i hi
  rw [Nat.zero_add]
  exact memRead_eq_ok.2 ⟨hi, h i hi⟩

theorem cgenWindow_of_get {name : BufferName} {table : Buffer α} {phase : BitVec 1} {w : Nat} {f : Nat → α}
    (h : ∀ i, i < 2 * w → bufGet table i = some (f i)) :
    cgenWindow name table phase w = .ok ((List.range w).map fun j => f (phase.toNat * w + j)) := by
  have hp := phase_le_one phase
  refine collect_of_eq ?_
  intro j hj
  have h1 : phase.toNat * w ≤ 1 * w := Nat.mul_le_mul_right w hp
  exact memRead_eq_ok.2 ⟨by omega, h _ (by omega)⟩

theorem requireShift_eq_ok {name : BufferName} {s : State} {u : Unit} :
    requireShift name s = .ok u ↔ 3 ≤ lineWidth s := by
  unfold requireShift shift
  split <;> simp <;> omega

/-! ### Lengths of what a line command computes -/

theorem interleave_length (l : List (Number × Number × Number)) : (interleave l).length = 3 * l.length := by
  induction l with
  | nil => rfl
  | cons p l ih => obtain ⟨r, g, b⟩ := p; simp only [interleave, List.length_cons, ih]; omega

theorem interleave_get (l : List (Number × Number × Number)) (i : Nat) :
    (interleave l)[3 * i]? = l[i]?.map (·.1) ∧ (interleave l)[3 * i + 1]? = l[i]?.map (·.2.1) ∧
      (interleave l)[3 * i + 2]? = l[i]?.map (·.2.2) := by
  induction l generalizing i with
  | nil => simp [interleave]
  | cons p l ih =>
    obtain ⟨r, g, b⟩ := p
    cases i with
    | zero => simp [interleave]
    | succ i =>
      have h : 3 * (i + 1) = 3 * i + 1 + 1 + 1 := by omega
      simpa [interleave, h] using ih i

theorem encodeLine_out_length (N : NumFormat α) (fi fq : Biquad α) {sw cw : List α} {pixels : List (α × α × α)} {w : Nat}
    (h3 : 3 ≤ w) (hs : sw.length = w) (hc : cw.length = w) (hp : pixels.length = w) :
    (encodeLine N fi fq sw cw pixels).out.length = w := by
  simp only [encodeLine, carrierSum, List.length_zipWith, List.length_map]
  rw [filterLine_length _ _ (by simp; omega), filterLine_length _ _ (by simp; omega)]
  simp [hs, hc, hp]

theorem encodeLine_chroma_length (N : NumFormat α) (fi fq : Biquad α) (sw cw : List α) (pixels : List (α × α × α)) :
    (encodeLine N fi fq sw cw pixels).chroma.length = pixels.length := by simp [encodeLine]

theorem decodeLine_chroma_length (N : NumFormat α) (fi fq : Biquad α) {sw cw ls xs : List α} {w : Nat}
    (h3 : 3 ≤ w) (hs : sw.length = w) (hc : cw.length = w) (hx : xs.length = w) :
    (decodeLine N fi fq sw cw ls xs).chroma.length = w := by
  simp only [decodeLine, List.length_zipWith]
  rw [filterLine_length _ _ (by simp [hs, hx]; omega), filterLine_length _ _ (by simp [hc, hx]; omega)]
  simp [hs, hc, hx]

theorem decodeLine_pixels_length (N : NumFormat α) (fi fq : Biquad α) {sw cw ls xs : List α} {w : Nat}
    (h3 : 3 ≤ w) (hs : sw.length = w) (hc : cw.length = w) (hl : ls.length = w) (hx : xs.length = w) :
    (decodeLine N fi fq sw cw ls xs).pixels.length = w := by
  have h := decodeLine_chroma_length N fi fq (ls := ls) h3 hs hc hx
  have e : (decodeLine N fi fq sw cw ls xs).pixels =
      List.zipWith (ctToRgb N) (decodeLine N fi fq sw cw ls xs).chroma ls := rfl
  rw [e, List.length_zipWith, h, hl, Nat.min_self]

/-! ### The commands on a live context -/

/-- Everything ENCODE on a live context can do when it answers a state. -/
theorem encodeContext_eq_ok {P : Params Number} {s t : State} (h : encodeContext P s = .ok t) :
    ∃ sw cw pixels, readWindows s = .ok (sw, cw) ∧ readPixels P s = .ok pixels ∧ 3 ≤ lineWidth s ∧
      lineWidth s ≤ lineCapacity P ∧
      t = { s with
        cb := bufPutAll s.cb 0 (encodeLine P.num s.fi s.fq sw cw pixels).chroma
        fi := (encodeLine P.num s.fi s.fq sw cw pixels).fi
        fq := (encodeLine P.num s.fi s.fq sw cw pixels).fq
        lineOut := bufPutAll s.lineOut 0 (encodeLine P.num s.fi s.fq sw cw pixels).out
        phase := togglePhase s.phase
        status := statusOk } := by
  unfold encodeContext at h
  simp only [bind, Except.bind] at h
  split at h
  · cases h
  rename_i v hw
  obtain ⟨sw, cw⟩ := v
  simp only at h
  split at h
  · cases h
  rename_i pixels hp
  split at h
  · cases h
  rename_i u hu
  split at h
  · cases h
  rename_i cb hcb
  split at h
  · cases h
  rename_i out hout
  cases h
  have h3 := requireShift_eq_ok.1 hu
  obtain ⟨hsw, hcw⟩ := readWindows_eq_ok.1 hw
  have hl := encodeLine_out_length P.num s.fi s.fq h3 (cgenWindow_length hsw) (cgenWindow_length hcw)
    (readPixels_length hp)
  obtain ⟨hfit, rfl⟩ := memWriteAll_eq_ok.1 hout
  obtain ⟨-, rfl⟩ := memWriteAll_eq_ok.1 hcb
  refine ⟨sw, cw, pixels, hw, hp, h3, ?_, rfl⟩
  rcases hfit with h0 | h0
  · rw [h0, List.length_nil] at hl; omega
  · omega

/-- ENCODE on a live context whose reads succeed answers a state. -/
theorem encodeContext_of_reads {P : Params Number} {s : State} {sw cw : List Number}
    {pixels : List (Number × Number × Number)} (hw : readWindows s = .ok (sw, cw)) (hp : readPixels P s = .ok pixels)
    (h3 : 3 ≤ lineWidth s) (hc : lineWidth s ≤ lineCapacity P) :
    encodeContext P s = .ok { s with
        cb := bufPutAll s.cb 0 (encodeLine P.num s.fi s.fq sw cw pixels).chroma
        fi := (encodeLine P.num s.fi s.fq sw cw pixels).fi
        fq := (encodeLine P.num s.fi s.fq sw cw pixels).fq
        lineOut := bufPutAll s.lineOut 0 (encodeLine P.num s.fi s.fq sw cw pixels).out
        phase := togglePhase s.phase
        status := statusOk } := by
  obtain ⟨hsw, hcw⟩ := readWindows_eq_ok.1 hw
  have hl := encodeLine_out_length P.num s.fi s.fq h3 (cgenWindow_length hsw) (cgenWindow_length hcw)
    (readPixels_length hp)
  have hu : requireShift .cb s = .ok () := requireShift_eq_ok.2 h3
  have hcb : memWriteAll (lineWidth s) .cb s.cb 0 (encodeLine P.num s.fi s.fq sw cw pixels).chroma = .ok _ :=
    memWriteAll_of_fits (by rw [encodeLine_chroma_length, readPixels_length hp]; omega)
  have hout : writeLineOut P s (encodeLine P.num s.fi s.fq sw cw pixels).out = .ok _ :=
    memWriteAll_of_fits (by rw [hl]; omega)
  simp only [encodeContext, bind, Except.bind, hw, hp, hu, hcb, hout]

/-- The state a finished DECODE leaves. -/
def decodedState (P : Params Number) (s : State) (sw cw ls xs x : List Number) : State :=
  { s with
    cb := bufPutAll s.cb 0 (decodeLine P.num s.fi s.fq sw cw ls xs).chroma
    fi := (decodeLine P.num s.fi s.fq sw cw ls xs).fi
    fq := (decodeLine P.num s.fi s.fq sw cw ls xs).fq
    lineOut := bufPutAll s.lineOut 0 (interleave (decodeLine P.num s.fi s.fq sw cw ls xs).pixels)
    pl := bufPutAll s.pl 0 x
    pc := bufPutAll s.pc 0 x
    phase := togglePhase s.phase
    status := statusOk }

/-- Everything the end of a DECODE can do when it answers a state. -/
theorem decodeFinish_eq_ok {P : Params Number} {s t : State} {ls xs : List Number} (h : decodeFinish P s ls xs = .ok t) :
    ∃ sw cw x, readWindows s = .ok (sw, cw) ∧ readSamples P s = .ok x ∧ 3 ≤ lineWidth s ∧
      ((decodeLine P.num s.fi s.fq sw cw ls xs).chroma = [] ∨
        (decodeLine P.num s.fi s.fq sw cw ls xs).chroma.length ≤ lineWidth s) ∧
      (interleave (decodeLine P.num s.fi s.fq sw cw ls xs).pixels = [] ∨
        (interleave (decodeLine P.num s.fi s.fq sw cw ls xs).pixels).length ≤ lineCapacity P) ∧
      t = decodedState P s sw cw ls xs x := by
  unfold decodeFinish at h
  simp only [bind, Except.bind] at h
  split at h
  · cases h
  rename_i v hw
  obtain ⟨sw, cw⟩ := v
  simp only at h
  split at h
  · cases h
  rename_i x hx
  split at h
  · cases h
  rename_i u hu
  split at h
  · cases h
  rename_i cb hcb
  split at h
  · cases h
  rename_i out hout
  split at h
  · cases h
  rename_i pl hpl
  split at h
  · cases h
  rename_i pc hpc
  cases h
  obtain ⟨f1, rfl⟩ := memWriteAll_eq_ok.1 hcb
  obtain ⟨f2, rfl⟩ := memWriteAll_eq_ok.1 hout
  obtain ⟨-, rfl⟩ := memWriteAll_eq_ok.1 hpl
  obtain ⟨-, rfl⟩ := memWriteAll_eq_ok.1 hpc
  rw [Nat.zero_add] at f1 f2
  exact ⟨sw, cw, x, hw, hx, requireShift_eq_ok.1 hu, f1, f2, rfl⟩

/-- The end of a DECODE whose reads succeed and whose lines are whole answers a state. -/
theorem decodeFinish_of_reads {P : Params Number} {s : State} {sw cw ls xs x : List Number}
    (hw : readWindows s = .ok (sw, cw)) (hx : readSamples P s = .ok x) (h3 : 3 ≤ lineWidth s)
    (hc : 3 * lineWidth s ≤ lineCapacity P) (hls : ls.length = lineWidth s) (hxs : xs.length = lineWidth s) :
    decodeFinish P s ls xs = .ok (decodedState P s sw cw ls xs x) := by
  obtain ⟨hsw, hcw⟩ := readWindows_eq_ok.1 hw
  have l1 := decodeLine_chroma_length P.num s.fi s.fq (ls := ls) h3 (cgenWindow_length hsw) (cgenWindow_length hcw) hxs
  have l2 := decodeLine_pixels_length P.num s.fi s.fq h3 (cgenWindow_length hsw) (cgenWindow_length hcw) hls hxs
  have hu : requireShift .lineIn s = .ok () := requireShift_eq_ok.2 h3
  have hcb : memWriteAll (lineWidth s) .cb s.cb 0 (decodeLine P.num s.fi s.fq sw cw ls xs).chroma = .ok _ :=
    memWriteAll_of_fits (by rw [l1]; omega)
  have hout : writeLineOut P s (interleave (decodeLine P.num s.fi s.fq sw cw ls xs).pixels) = .ok _ :=
    memWriteAll_of_fits (by rw [interleave_length, l2]; omega)
  have hpl : memWriteAll (lineWidth s) .pl s.pl 0 x = .ok _ :=
    memWriteAll_of_fits (by rw [readSamples_length hx]; omega)
  have hpc : memWriteAll (lineWidth s) .pc s.pc 0 x = .ok _ :=
    memWriteAll_of_fits (by rw [readSamples_length hx]; omega)
  simp only [decodeFinish, bind, Except.bind, hw, hx, hu, hcb, hout, hpl, hpc, decodedState]

/-- What the canceller's result makes of a DECODE: finished, or waiting with nothing of the engine written. -/
theorem decodeAfterCancel_eq_ok {P : Params Number} {s t : State} {xs : List Number} {r : CancelResult Number}
    (h : decodeAfterCancel P s xs r = .ok t) :
    (∃ ls answers sent, r = .done ls answers sent ∧
      decodeFinish P { s with estAnswers := answers, estQueries := s.estQueries ++ sent, waiting := none } ls xs = .ok t) ∨
    (∃ b ls sent, r = .waiting b ls sent ∧
      t = { s with estAnswers := [], estQueries := s.estQueries ++ sent, waiting := some ⟨b, ls, xs⟩ }) := by
  cases r with
  | done ls answers sent => exact .inl ⟨ls, answers, sent, rfl, h⟩
  | waiting b ls sent => cases h; exact .inr ⟨b, ls, sent, rfl, rfl⟩

/-- Everything DECODE on a live context can do when it answers a state. -/
theorem decodeContext_eq_ok {P : Params Number} {s t : State} (h : decodeContext P s = .ok t) :
    ∃ x pc, readSamples P s = .ok x ∧ readHistory .pc s.pc s = .ok pc ∧
      ((s.hmode = 0 ∧ ∃ pl, readHistory .pl s.pl s = .ok pl ∧
          decodeFinish P s (combLuma P.num x pl) (combChroma P.num x pc) = .ok t) ∨
       (s.hmode ≠ 0 ∧ decodeAfterCancel P s (combChroma P.num x pc)
          (hrcCancel P.num (lineWidth s) x (combChroma P.num x pc) s.estAnswers) = .ok t)) := by
  unfold decodeContext at h
  simp only [bind, Except.bind] at h
  split at h
  · cases h
  rename_i x hx
  split at h
  · cases h
  rename_i pc hpc
  refine ⟨x, pc, hx, hpc, ?_⟩
  split at h
  · rename_i hm
    split at h
    · cases h
    rename_i pl hpl
    exact .inl ⟨hm, pl, hpl, h⟩
  · exact .inr ⟨‹_›, h⟩

theorem decodeContext_plain {P : Params Number} {s : State} {x pl pc : List Number} (hm : s.hmode = 0)
    (hx : readSamples P s = .ok x) (hpc : readHistory .pc s.pc s = .ok pc) (hpl : readHistory .pl s.pl s = .ok pl) :
    decodeContext P s = decodeFinish P s (combLuma P.num x pl) (combChroma P.num x pc) := by
  simp only [decodeContext, bind, Except.bind, hx, hpc, hpl, hm, if_true]

theorem decodeContext_harmonic {P : Params Number} {s : State} {x pc : List Number} (hm : s.hmode ≠ 0)
    (hx : readSamples P s = .ok x) (hpc : readHistory .pc s.pc s = .ok pc) :
    decodeContext P s = decodeAfterCancel P s (combChroma P.num x pc)
      (hrcCancel P.num (lineWidth s) x (combChroma P.num x pc) s.estAnswers) := by
  simp only [decodeContext, bind, Except.bind, hx, hpc, hm, if_false]

theorem combLuma_length {N : NumFormat α} {x pl : List α} {w : Nat} (h1 : x.length = w) (h2 : pl.length = w) :
    (combLuma N x pl).length = w := by simp [combLuma, h1, h2]

theorem combChroma_length {N : NumFormat α} {x pc : List α} {w : Nat} (h1 : x.length = w) (h2 : pc.length = w) :
    (combChroma N x pc).length = w := by simp [combChroma, h1, h2]

end Sys2Proof.Machine
end

