-- ==== Sys2Proof/Laws/Finite.lean ====
section
/-! SUPPORT. A tracked computation has the values of the plain one, and what it calls finite is finite. -/

namespace Sys2Proof.Machine

variable {α : Type} (N : NumFormat α)

/-- The values of a tracked filter. -/
def valueBiquad (F : Biquad (Tracked α)) : Biquad α :=
  ⟨F.a0.value, F.a1.value, F.a2.value, F.b1.value, F.b2.value, F.z1.value, F.z2.value⟩

/-- The values of a tracked pair. -/
def valuePair (c : Tracked α × Tracked α) : α × α := (c.1.value, c.2.value)

/-- The values of a tracked pixel. -/
def valuePixel (p : Tracked α × Tracked α × Tracked α) : α × α × α := (p.1.value, p.2.1.value, p.2.2.value)

/-- The values of a tracked list. -/
abbrev values (l : List (Tracked α)) : List α := l.map Tracked.value

/-- What is called finite has a finite value. -/
def Sound (x : Tracked α) : Prop := x.finite = true → N.finite x.value = true

/-- Every register of the filter is sound. -/
def SoundBiquad (F : Biquad (Tracked α)) : Prop := ∀ x ∈ [F.a0, F.a1, F.a2, F.b1, F.b2, F.z1, F.z2], Sound N x

/-! ### Values -/

theorem value_track (x : α) : (track N x).value = x := rfl

theorem values_track (l : List α) : values (l.map (track N)) = l := by simp [Function.comp_def, value_track]

theorem valueBiquad_track (F : Biquad α) : valueBiquad (trackBiquad N F) = F := rfl

theorem valuePixel_track (l : List (α × α × α)) : (l.map (trackPixel N)).map valuePixel = l := by
  simp [Function.comp_def, valuePixel, trackPixel, value_track]

theorem values_zipWith {f : Tracked α → Tracked α → Tracked α} {g : α → α → α}
    (h : ∀ x y, (f x y).value = g x.value y.value) (xs ys : List (Tracked α)) :
    values (List.zipWith f xs ys) = List.zipWith g (values xs) (values ys) := by
  simp only [values, List.map_zipWith, List.zipWith_map, h]

theorem bqRun_values (F : Biquad (Tracked α)) (xs : List (Tracked α)) :
    values (bqRun (trackFormat N) F xs).1 = (bqRun N (valueBiquad F) (values xs)).1 ∧
      valueBiquad (bqRun (trackFormat N) F xs).2 = (bqRun N (valueBiquad F) (values xs)).2 := by
  induction xs generalizing F with
  | nil => exact ⟨rfl, rfl⟩
  | cons x xs ih =>
    obtain ⟨h1, h2⟩ := ih (bqProcess (trackFormat N) F x).2
    exact ⟨congrArg (_ :: ·) h1, h2⟩

theorem filterLine_values (F : Biquad (Tracked α)) (xs : List (Tracked α)) :
    values (filterLine (trackFormat N) F xs).1 = (filterLine N (valueBiquad F) (values xs)).1 ∧
      valueBiquad (filterLine (trackFormat N) F xs).2 = (filterLine N (valueBiquad F) (values xs)).2 := by
  have zeros : values (List.replicate shift (numZero (trackFormat N))) = List.replicate shift (numZero N) := rfl
  simp only [filterLine]
  generalize hp : bqRun (trackFormat N) F (xs.take shift) = p
  have vp := bqRun_values N F (xs.take shift)
  rw [hp, show values (xs.take shift) = (values xs).take shift from List.map_take] at vp
  generalize hm : bqRun (trackFormat N) p.2 (xs.drop shift) = m
  have vm := bqRun_values N p.2 (xs.drop shift)
  rw [hm, vp.2, show values (xs.drop shift) = (values xs).drop shift from List.map_drop] at vm
  have vd := bqRun_values N m.2 (List.replicate shift (numZero (trackFormat N)))
  rw [vm.2, zeros] at vd
  exact ⟨by rw [values, List.map_append]; exact congrArg₂ _ vm.1 vd.1, vd.2⟩

theorem encodeLine_values (fi fq : Biquad (Tracked α)) (sw cw : List (Tracked α))
    (pixels : List (Tracked α × Tracked α × Tracked α)) :
    let T := encodeLine (trackFormat N) fi fq sw cw pixels
    let L := encodeLine N (valueBiquad fi) (valueBiquad fq) (values sw) (values cw) (pixels.map valuePixel)
    T.chroma.map valuePair = L.chroma ∧ valueBiquad T.fi = L.fi ∧ valueBiquad T.fq = L.fq ∧ values T.out = L.out := by
  have c0 : (pixels.map (ctChroma (trackFormat N))).map valuePair = (pixels.map valuePixel).map (ctChroma N) := by
    rw [List.map_map, List.map_map]; rfl
  have c1 : values ((pixels.map (ctChroma (trackFormat N))).map Prod.fst) =
      ((pixels.map valuePixel).map (ctChroma N)).map Prod.fst := by
    simp only [values, List.map_map]; rfl
  have c2 : values ((pixels.map (ctChroma (trackFormat N))).map Prod.snd) =
      ((pixels.map valuePixel).map (ctChroma N)).map Prod.snd := by
    simp only [values, List.map_map]; rfl
  have c3 : values (pixels.map (ctLuma (trackFormat N))) = (pixels.map valuePixel).map (ctLuma N) := by
    simp only [values, List.map_map]; rfl
  have u := filterLine_values N fi ((pixels.map (ctChroma (trackFormat N))).map Prod.fst)
  have v := filterLine_values N fq ((pixels.map (ctChroma (trackFormat N))).map Prod.snd)
  rw [c1] at u
  rw [c2] at v
  refine ⟨c0, u.2, v.2, ?_⟩
  simp only [encodeLine, carrierSum]
  rw [values_zipWith (g := N.add) fun _ _ => rfl, values_zipWith (g := N.add) fun _ _ => rfl,
    values_zipWith (g := N.mul) fun _ _ => rfl, values_zipWith (g := N.mul) fun _ _ => rfl, u.1, v.1, c3]

theorem decodeLine_values (fi fq : Biquad (Tracked α)) (sw cw ls xs : List (Tracked α)) :
    let T := decodeLine (trackFormat N) fi fq sw cw ls xs
    let L := decodeLine N (valueBiquad fi) (valueBiquad fq) (values sw) (values cw) (values ls) (values xs)
    T.chroma.map valuePair = L.chroma ∧ valueBiquad T.fi = L.fi ∧ valueBiquad T.fq = L.fq ∧
      T.pixels.map valuePixel = L.pixels := by
  have u := filterLine_values N fi (List.zipWith (trackFormat N).mul xs sw)
  have v := filterLine_values N fq (List.zipWith (trackFormat N).mul xs cw)
  rw [values_zipWith (g := N.mul) fun _ _ => rfl] at u v
  have c : (List.zipWith (fun u v => ((trackFormat N).mul (demodGain (trackFormat N)) u,
        (trackFormat N).mul (demodGain (trackFormat N)) v))
        (filterLine (trackFormat N) fi (List.zipWith (trackFormat N).mul xs sw)).1
        (filterLine (trackFormat N) fq (List.zipWith (trackFormat N).mul xs cw)).1).map valuePair =
      List.zipWith (fun u v => (N.mul (demodGain N) u, N.mul (demodGain N) v))
        (filterLine N (valueBiquad fi) (List.zipWith N.mul (values xs) (values sw))).1
        (filterLine N (valueBiquad fq) (List.zipWith N.mul (values xs) (values cw))).1 := by
    rw [← u.1, ← v.1, List.map_zipWith, values, values, List.zipWith_map]; rfl
  refine ⟨c, u.2, v.2, ?_⟩
  simp only [decodeLine]
  rw [← c, List.map_zipWith, values, List.zipWith_map]; rfl

theorem combLuma_values (xs ys : List (Tracked α)) :
    values (combLuma (trackFormat N) xs ys) = combLuma N (values xs) (values ys) :=
  values_zipWith (fun _ _ => rfl) xs ys

theorem combChroma_values (xs ys : List (Tracked α)) :
    values (combChroma (trackFormat N) xs ys) = combChroma N (values xs) (values ys) :=
  values_zipWith (fun _ _ => rfl) xs ys

theorem hrcSelect_track (res : List (Estimate α)) :
    hrcSelect (trackFormat N) (res.map (trackEstimate N)) = (hrcSelect N res).map (trackEstimate N) := by
  rw [hrcSelect, List.find?_map]; rfl

theorem hrcBlock_values (b : Nat) (answer : List (Estimate α)) (ls : List (Tracked α)) :
    values (hrcBlock (trackFormat N) b (answer.map (trackEstimate N)) ls) = hrcBlock N b answer (values ls) := by
  rw [hrcBlock, hrcBlock, ← List.map_take, hrcSelect_track]
  cases hrcSelect N (answer.take kEst) with
  | none => rfl
  | some e =>
    simp only [Option.map_some, hrcSubtract]
    apply List.ext_getElem?
    intro p
    rw [values, values, List.getElem?_map, List.getElem?_mapIdx, List.getElem?_mapIdx, List.getElem?_map]
    cases ls[p]? with
    | none => rfl
    | some v => simp only [Option.map_some]; split <;> rfl

/-! ### Finiteness -/

theorem track_sound (x : α) : Sound N (track N x) := fun h => h

theorem trackResult_sound (v : α) (b : Bool) : Sound N (trackResult N v b) := fun h => (Bool.and_eq_true_iff.1 h).2

theorem sub_sound (x y : Tracked α) : Sound N ((trackFormat N).sub x y) := trackResult_sound N _ _

theorem add_sound (x y : Tracked α) : Sound N ((trackFormat N).add x y) := trackResult_sound N _ _

theorem mul_sound (x y : Tracked α) : Sound N ((trackFormat N).mul x y) := trackResult_sound N _ _

theorem ctChroma_sound (p : Tracked α × Tracked α × Tracked α) :
    Sound N (ctChroma (trackFormat N) p).1 ∧ Sound N (ctChroma (trackFormat N) p).2 :=
  ⟨sub_sound N _ _, add_sound N _ _⟩

theorem sound_of_mem_zipWith {β γ : Type} {f : β → γ → Tracked α} (h : ∀ x y, Sound N (f x y)) {xs : List β}
    {ys : List γ} : ∀ v ∈ List.zipWith f xs ys, Sound N v := by
  intro v hv
  rw [List.mem_iff_getElem?] at hv
  obtain ⟨i, hi⟩ := hv
  rw [List.getElem?_zipWith] at hi
  split at hi
  · cases hi; exact h _ _
  · cases hi

theorem trackBiquad_sound (F : Biquad α) : SoundBiquad N (trackBiquad N F) := by
  intro x hx
  simp only [trackBiquad, List.mem_cons, List.not_mem_nil, or_false] at hx
  rcases hx with rfl | rfl | rfl | rfl | rfl | rfl | rfl <;> exact track_sound N _

theorem bqProcess_sound {F : Biquad (Tracked α)} (h : SoundBiquad N F) (x : Tracked α) :
    SoundBiquad N (bqProcess (trackFormat N) F x).2 := by
  intro y hy
  simp only [bqProcess, List.mem_cons, List.not_mem_nil, or_false] at hy
  rcases hy with rfl | rfl | rfl | rfl | rfl | rfl | rfl
  case inr.inr.inr.inr.inr.inl => exact trackResult_sound N _ _
  case inr.inr.inr.inr.inr.inr => exact trackResult_sound N _ _
  all_goals exact h _ (by simp)

theorem bqRun_sound {F : Biquad (Tracked α)} (h : SoundBiquad N F) (xs : List (Tracked α)) :
    SoundBiquad N (bqRun (trackFormat N) F xs).2 := by
  induction xs generalizing F with
  | nil => exact h
  | cons x xs ih => exact ih (bqProcess_sound N h x)

theorem filterLine_sound {F : Biquad (Tracked α)} (h : SoundBiquad N F) (xs : List (Tracked α)) :
    SoundBiquad N (filterLine (trackFormat N) F xs).2 :=
  bqRun_sound N (bqRun_sound N (bqRun_sound N h _) _) _

theorem bqInit_sound (fc : Tracked α) : SoundBiquad N (bqInit (trackFormat N) fc) := by
  intro x hx
  simp only [bqInit, bqCoefficients, List.mem_cons, List.not_mem_nil, or_false] at hx
  rcases hx with rfl | rfl | rfl | rfl | rfl | rfl | rfl
  case inr.inr.inr.inr.inr.inl => exact track_sound N _
  case inr.inr.inr.inr.inr.inr => exact track_sound N _
  all_goals exact trackResult_sound N _ _

theorem numbersFinite_values {l : List (Tracked α)} (hs : ∀ x ∈ l, Sound N x) (hf : listFinite l = true) :
    numbersFinite N (values l) := by
  intro v hv
  obtain ⟨x, hx, rfl⟩ := List.mem_map.1 hv
  exact hs x hx (List.all_eq_true.1 hf x hx)

theorem registersFinite_value {F : Biquad (Tracked α)} (hs : SoundBiquad N F) (hf : biquadFinite F = true) :
    registersFinite N (valueBiquad F) := numbersFinite_values N hs hf

/-- A sound and finite list is the tracked list of its values. -/
theorem track_values {l : List (Tracked α)} (hs : ∀ x ∈ l, Sound N x) (hf : listFinite l = true) :
    (values l).map (track N) = l := by
  rw [List.map_map]
  conv => rhs; rw [← List.map_id l]
  apply List.map_congr_left
  intro x hx
  have h1 := List.all_eq_true.1 hf x hx
  have h2 := hs x hx h1
  obtain ⟨v, b⟩ := x
  simp only [Function.comp, track, id] at h1 h2 ⊢
  rw [h1, h2]

theorem hrcBlock_sound {ls : List (Tracked α)} (h : ∀ x ∈ ls, Sound N x) (b : Nat) (a : List (Estimate (Tracked α))) :
    ∀ x ∈ hrcBlock (trackFormat N) b a ls, Sound N x := by
  unfold hrcBlock hrcSubtract
  split
  · exact h
  · intro x hx
    rw [List.mem_mapIdx] at hx
    obtain ⟨i, hi, rfl⟩ := hx
    split
    · exact trackResult_sound N _ _
    · exact h _ (List.getElem_mem hi)

theorem hrcApply_sound {ls : List (Tracked α)} (h : ∀ x ∈ ls, Sound N x) (b : Nat)
    (as : List (List (Estimate (Tracked α)))) : ∀ x ∈ hrcApply (trackFormat N) b as ls, Sound N x := by
  induction as generalizing b ls with
  | nil => exact h
  | cons a as ih => exact ih (hrcBlock_sound N h b a) (b + 1)

theorem hrcApply_values (b : Nat) (as : List (List (Estimate α))) (ls : List (Tracked α)) :
    values (hrcApply (trackFormat N) b (as.map (List.map (trackEstimate N))) ls) = hrcApply N b as (values ls) := by
  induction as generalizing b ls with
  | nil => rfl
  | cons a as ih => rw [List.map_cons, hrcApply, ih, hrcBlock_values, hrcApply]

/-! ### What the finiteness of a command gives -/

theorem listFinite_append (l m : List (Tracked α)) : listFinite (l ++ m) = (listFinite l && listFinite m) :=
  List.all_append

/-- An encoded line that is finite when tracked is finite. -/
theorem encodeLine_finite (fi fq : Biquad α) (sw cw : List α) (pixels : List (α × α × α))
    (h : encodedLineFinite (encodeLine (trackFormat N) (trackBiquad N fi) (trackBiquad N fq) (sw.map (track N))
      (cw.map (track N)) (pixels.map (trackPixel N))) = true) :
    let L := encodeLine N fi fq sw cw pixels
    (∀ c ∈ L.chroma, N.finite c.1 = true ∧ N.finite c.2 = true) ∧ registersFinite N L.fi ∧ registersFinite N L.fq ∧
      numbersFinite N L.out := by
  obtain ⟨vc, vi, vq, vo⟩ := encodeLine_values N (trackBiquad N fi) (trackBiquad N fq) (sw.map (track N))
    (cw.map (track N)) (pixels.map (trackPixel N))
  rw [values_track, values_track, valuePixel_track, valueBiquad_track, valueBiquad_track] at vc vi vq vo
  simp only [encodedLineFinite, Bool.and_eq_true_iff] at h
  obtain ⟨⟨⟨⟨h1, h2⟩, hi⟩, hq⟩, ho⟩ := h
  refine ⟨?_, ?_, ?_, ?_⟩
  · rw [← vc]
    intro c hc
    obtain ⟨d, hd, rfl⟩ := List.mem_map.1 hc
    have f1 := List.all_eq_true.1 h1 _ (List.mem_map_of_mem hd)
    have f2 := List.all_eq_true.1 h2 _ (List.mem_map_of_mem hd)
    obtain ⟨p, -, rfl⟩ := List.mem_map.1 hd
    exact ⟨(ctChroma_sound N p).1 f1, (ctChroma_sound N p).2 f2⟩
  · rw [← vi]
    refine registersFinite_value N ?_ hi
    simp only [encodeLine]
    exact filterLine_sound N (trackBiquad_sound N fi) _
  · rw [← vq]
    refine registersFinite_value N ?_ hq
    simp only [encodeLine]
    exact filterLine_sound N (trackBiquad_sound N fq) _
  · rw [← vo]
    refine numbersFinite_values N ?_ ho
    simp only [encodeLine]
    exact sound_of_mem_zipWith N (add_sound N)

/-- A decoded line that is finite when tracked is finite. -/
theorem decodeLine_finite (fi fq : Biquad α) (sw cw : List α) (ls xs : List (Tracked α))
    (h : decodedLineFinite (decodeLine (trackFormat N) (trackBiquad N fi) (trackBiquad N fq) (sw.map (track N))
      (cw.map (track N)) ls xs) = true) :
    let L := decodeLine N fi fq sw cw (values ls) (values xs)
    (∀ c ∈ L.chroma, N.finite c.1 = true ∧ N.finite c.2 = true) ∧ registersFinite N L.fi ∧ registersFinite N L.fq ∧
      ∀ p ∈ L.pixels, numbersFinite N [p.1, p.2.1, p.2.2] := by
  obtain ⟨vc, vi, vq, vp⟩ := decodeLine_values N (trackBiquad N fi) (trackBiquad N fq) (sw.map (track N))
    (cw.map (track N)) ls xs
  rw [values_track, values_track, valueBiquad_track, valueBiquad_track] at vc vi vq vp
  simp only [decodedLineFinite, Bool.and_eq_true_iff] at h
  obtain ⟨⟨⟨⟨h1, h2⟩, hi⟩, hq⟩, hp⟩ := h
  refine ⟨?_, ?_, ?_, ?_⟩
  · rw [← vc]
    intro c hc
    obtain ⟨d, hd, rfl⟩ := List.mem_map.1 hc
    have f1 := List.all_eq_true.1 h1 _ (List.mem_map_of_mem hd)
    have f2 := List.all_eq_true.1 h2 _ (List.mem_map_of_mem hd)
    obtain ⟨i, hi⟩ := List.mem_iff_getElem?.1 hd
    simp only [decodeLine, List.getElem?_zipWith] at hi
    split at hi
    · cases hi; exact ⟨trackResult_sound N _ _ f1, trackResult_sound N _ _ f2⟩
    · cases hi
  · rw [← vi]
    refine registersFinite_value N ?_ hi
    simp only [decodeLine]
    exact filterLine_sound N (trackBiquad_sound N fi) _
  · rw [← vq]
    refine registersFinite_value N ?_ hq
    simp only [decodeLine]
    exact filterLine_sound N (trackBiquad_sound N fq) _
  · rw [← vp]
    intro p hq
    obtain ⟨q, hm, rfl⟩ := List.mem_map.1 hq
    refine numbersFinite_values N (l := [q.1, q.2.1, q.2.2]) ?_ (List.all_eq_true.1 hp q hm)
    obtain ⟨i, hi⟩ := List.mem_iff_getElem?.1 hm
    simp only [decodeLine, List.getElem?_zipWith] at hi
    split at hi
    · cases hi
      intro x hx
      simp only [List.mem_cons, List.not_mem_nil, or_false] at hx
      rcases hx with rfl | rfl | rfl <;> exact trackResult_sound N _ _
    · cases hi

/-- Every number of a decoded line is finite. -/
structure FiniteLine (L : DecodedLine α) : Prop where
  chroma : ∀ c ∈ L.chroma, N.finite c.1 = true ∧ N.finite c.2 = true
  fi : registersFinite N L.fi
  fq : registersFinite N L.fq
  pixels : ∀ p ∈ L.pixels, numbersFinite N [p.1, p.2.1, p.2.2]

/-- The tracked run of the canceller stopped as the plain run did, at the same block and with the same luma line. -/
def ResultTracks : CancelResult (Tracked α) → CancelResult α → Prop
  | .done l _ _, .done ls _ _ => values l = ls ∧ ∀ x ∈ l, Sound N x
  | .waiting b l _, .waiting b' ls _ => b = b' ∧ values l = ls ∧ ∀ x ∈ l, Sound N x
  | _, _ => False

theorem hrcLoop_tracks (w fuel b : Nat) (xs : List (Tracked α)) {ls : List (Tracked α)} (hs : ∀ x ∈ ls, Sound N x)
    (answers : List (List (Estimate α))) (sent : List (Query (Tracked α))) (sent' : List (Query α)) :
    ResultTracks N
      (hrcLoop (trackFormat N) w xs fuel b ls (answers.map (List.map (trackEstimate N))) sent)
      (hrcLoop N w (values xs) fuel b (values ls) answers sent') := by
  induction fuel generalizing b ls answers sent sent' with
  | zero => exact ⟨rfl, hs⟩
  | succ fuel ih =>
    rw [hrcLoop_succ, hrcLoop_succ]
    split
    · cases answers with
      | nil => exact ⟨rfl, rfl, hs⟩
      | cons a rest =>
        simp only [List.map_cons]
        rw [← hrcBlock_values]
        exact ih (b + 1) (hrcBlock_sound N hs b _) rest _ _
    · exact ⟨rfl, hs⟩

/-- The end of a DECODE whose tracked values are finite: the line it leaves is finite. -/
theorem decodeFinish_finite {P : Params Number} {s t : State} {ls xs : List (Tracked Number)}
    (hf : finishFinite P s ls xs = true) (h : decodeFinish P s (values ls) (values xs) = .ok t) :
    ∃ sw cw x, readWindows s = .ok (sw, cw) ∧ readSamples P s = .ok x ∧ 3 ≤ lineWidth s ∧
      t = decodedState P s sw cw (values ls) (values xs) x ∧
      FiniteLine P.num (decodeLine P.num s.fi s.fq sw cw (values ls) (values xs)) := by
  obtain ⟨sw, cw, x, hw, hx, h3, -, -, ht⟩ := decodeFinish_eq_ok h
  simp only [finishFinite, hw] at hf
  obtain ⟨h1, h2, h3', h4⟩ := decodeLine_finite P.num s.fi s.fq sw cw ls xs hf
  exact ⟨sw, cw, x, hw, hx, h3, ht, h1, h2, h3', h4⟩

/-- Everything a DECODE whose tracked values are finite can do when the canceller has stopped. -/
theorem decodeAfterCancel_finite {P : Params Number} {s t : State} {xs : List (Tracked Number)}
    {r' : CancelResult (Tracked Number)} {r : CancelResult Number} (hxs : ∀ x ∈ xs, Sound P.num x)
    (hr : ResultTracks P.num r' r) (hf : cancelFinite P s xs r' = true)
    (h : decodeAfterCancel P s (values xs) r = .ok t) :
    (∃ ls answers sent sw cw x, r = .done ls answers sent ∧ readWindows s = .ok (sw, cw) ∧ readSamples P s = .ok x ∧
      3 ≤ lineWidth s ∧
      t = decodedState P { s with estAnswers := answers, estQueries := s.estQueries ++ sent, waiting := none } sw cw ls
        (values xs) x ∧
      FiniteLine P.num (decodeLine P.num s.fi s.fq sw cw ls (values xs))) ∨
    (∃ b ls sent, r = .waiting b ls sent ∧ numbersFinite P.num ls ∧ numbersFinite P.num (values xs) ∧
      t = { s with estAnswers := [], estQueries := s.estQueries ++ sent, waiting := some ⟨b, ls, values xs⟩ }) := by
  cases r with
  | done ls answers sent =>
    cases r' with
    | waiting => exact hr.elim
    | done l as q =>
      obtain ⟨rfl, -⟩ := hr
      obtain ⟨sw, cw, x, hw, hx, h3, ht, hl⟩ := decodeFinish_finite (P := P)
        (s := { s with estAnswers := answers, estQueries := s.estQueries ++ sent, waiting := none }) (show _ = true from hf) h
      exact .inl ⟨_, answers, sent, sw, cw, x, rfl, hw, hx, h3, ht, hl⟩
  | waiting b ls sent =>
    cases r' with
    | done => exact hr.elim
    | waiting b' l q =>
      obtain ⟨-, rfl, hl⟩ := hr
      obtain ⟨f1, f2⟩ := Bool.and_eq_true_iff.1 (show (listFinite l && listFinite xs) = true from hf)
      cases h
      exact .inr ⟨b, _, sent, rfl, numbersFinite_values _ hl f1, numbersFinite_values _ hxs f2, rfl⟩

theorem track_list_sound (l : List α) : ∀ x ∈ l.map (track N), Sound N x := by
  intro x hx
  obtain ⟨v, -, rfl⟩ := List.mem_map.1 hx
  exact track_sound N v

/-- A harmonic DECODE whose tracked values are finite: how the canceller stopped, and that it tracks. -/
theorem decodeFinite_harmonic {P : Params Number} {s : State} {x pc : List Number} (hm : s.hmode ≠ 0)
    (hx : readSamples P s = .ok x) (hpc : readHistory .pc s.pc s = .ok pc) (hf : decodeFinite P s = true) :
    ∃ xs r, values xs = combChroma P.num x pc ∧ (∀ v ∈ xs, Sound P.num v) ∧
      ResultTracks P.num r (hrcCancel P.num (lineWidth s) x (combChroma P.num x pc) s.estAnswers) ∧
      cancelFinite P s xs r = true := by
  have e : values (combChroma (trackFormat P.num) (x.map (track P.num)) (pc.map (track P.num))) = combChroma P.num x pc := by
    rw [combChroma_values, values_track, values_track]
  simp only [decodeFinite, hx, hpc, hm, if_false] at hf
  refine ⟨_, _, e, sound_of_mem_zipWith _ fun _ _ => trackResult_sound _ _ _, ?_, hf⟩
  have := hrcLoop_tracks P.num (lineWidth s) (lineWidth s + 1) 0
    (combChroma (trackFormat P.num) (x.map (track P.num)) (pc.map (track P.num)))
    (track_list_sound P.num x) s.estAnswers [] []
  rw [e, values_track] at this
  exact this

/-- A waiting DECODE whose tracked values are finite: how the canceller stops next, and that it tracks. -/
theorem resumeFinite_tracks {P : Params Number} {s : State} {d : Waiting} {a : List (Estimate Number)}
    {as : List (List (Estimate Number))} (hf : resumeFinite P s d a as = true) :
    ∃ r, ResultTracks P.num r (hrcLoop P.num (lineWidth s) d.xs (lineWidth s + 1) (d.block + 1)
        (hrcBlock P.num d.block a d.ls) as []) ∧ cancelFinite P s (d.xs.map (track P.num)) r = true := by
  refine ⟨_, ?_, hf⟩
  have := hrcLoop_tracks P.num (lineWidth s) (lineWidth s + 1) (d.block + 1) (d.xs.map (track P.num))
    (hrcBlock_sound P.num (track_list_sound P.num d.ls) d.block (a.map (trackEstimate P.num))) as [] []
  rwa [hrcBlock_values, values_track, values_track] at this

theorem bufTabulate_values (n : Nat) (f : Nat → α) : (bufTabulate n f).map Prod.snd = (List.range n).map f := by
  simp [bufTabulate, Function.comp_def]

/-- A CREATE whose tracked values are finite writes finite tables and filters. -/
theorem createFinite_eq_true {N : NumFormat Number} {width : Nat} (h : createFinite N width = true) :
    numbersFinite N ((cgenSin N width).map Prod.snd) ∧ numbersFinite N ((cgenCos N width).map Prod.snd) ∧
      registersFinite N (bqInit N (fcI N)) ∧ registersFinite N (bqInit N (fcQ N)) := by
  simp only [createFinite, Bool.and_eq_true_iff] at h
  obtain ⟨⟨⟨hs, hc⟩, hi⟩, hq⟩ := h
  rw [cgenSin, bufTabulate_values] at hs
  rw [cgenCos, bufTabulate_values] at hc
  have sound : ∀ (f : Nat → Tracked Number), (∀ i, Sound N (f i)) → ∀ x ∈ (List.range (2 * width)).map f, Sound N x := by
    intro f hf x hx
    obtain ⟨i, -, rfl⟩ := List.mem_map.1 hx
    exact hf i
  have s := numbersFinite_values N (sound _ fun i => trackResult_sound N _ _) hs
  have c := numbersFinite_values N (sound _ fun i => trackResult_sound N _ _) hc
  rw [values, List.map_map] at s c
  refine ⟨?_, ?_, registersFinite_value N (bqInit_sound N _) hi, registersFinite_value N (bqInit_sound N _) hq⟩
  · rw [cgenSin, bufTabulate_values]; exact s
  · rw [cgenCos, bufTabulate_values]; exact c

end Sys2Proof.Machine
end

