-- ==== Sys2Proof/Laws/PerInstr.lean ====
section
/-! SUPPORT. What is proved instruction by instruction: the encoding against the rows of spec/opcode_table.json. -/

namespace Sys2Proof.Laws

/-- The `match` and `mask` of the instruction's row of spec/opcode_table.json. -/
def tableRow : Instr → CommandWord × CommandWord
  | .create _ _ => (0x10000000, 0xFE000000)
  | .encode => (0x20000000, 0xFFFFFFFF)
  | .decode => (0x30000000, 0xFFFFFFFF)
  | .destroy => (0x40000000, 0xFFFFFFFF)

/-- The instruction's word matches its row of the opcode table. -/
def EncodingMatchesTable.Statement (i : Instr) : Prop := encode i &&& (tableRow i).2 = (tableRow i).1

theorem EncodingMatchesTable.create (width : Nat) (h : BitVec 1) :
    EncodingMatchesTable.Statement (.create width h) := by
  have e : ∀ (h : BitVec 1) (k : BitVec 24), (0x1#4 ++ 0#3 ++ h ++ k) &&& 0xFE000000#32 = 0x10000000#32 := by
    intro h k
    apply BitVec.eq_of_getLsbD_eq
    intro i hi
    simp only [BitVec.getLsbD_and, BitVec.getLsbD_append]
    interval_cases i <;> simp
  exact e h _

theorem EncodingMatchesTable.encode : EncodingMatchesTable.Statement .encode := by
  show _ &&& _ = _; decide

theorem EncodingMatchesTable.decode : EncodingMatchesTable.Statement .decode := by
  show _ &&& _ = _; decide

theorem EncodingMatchesTable.destroy : EncodingMatchesTable.Statement .destroy := by
  show _ &&& _ = _; decide

end Sys2Proof.Laws
end

