-- ==== Sys2Proof/Laws/Step.lean ====
section
/-! SUPPORT. Everything a command and a step can do when they answer a next state, and the canonical form of the buffers
through every memory operation. -/

namespace Sys2Proof.Machine

/-! ### The canonical form -/

theorem reset_memory_wf : Memory.wf State.reset := by
  refine ⟨?_, ?_, ?_, ?_, ?_, ?_, ?_⟩ <;> exact List.Pairwise.nil

theorem memWrite_wf {α : Type} {size : Nat} {name : BufferName} {b b' : Buffer α} {i : Nat} {v : α} (hb : b.wf)
    (h : memWrite size name b i v = .ok b') : b'.wf := by
  obtain ⟨-, rfl⟩ := memWrite_eq_ok.1 h
  exact bufPut_wf hb i v

theorem memWriteAll_wf {α : Type} {size : Nat} {name : BufferName} {b b' : Buffer α} {start : Nat} {vs : List α}
    (hb : b.wf) (h : memWriteAll size name b start vs = .ok b') : b'.wf := by
  obtain ⟨-, rfl⟩ := memWriteAll_eq_ok.1 h
  exact bufPutAll_wf hb start vs

/-! ### A command -/

/-- Everything a command can do when it answers a next state. -/
theorem execWith_eq_next {P : Params Number} {i : Instr} {s t : State} (h : execWith P i s = .next t) :
    (∃ e, t = raiseError e s) ∨
    (∃ width hm, i = .create width hm ∧ s.ctxValid = 0 ∧ 3 ≤ width ∧ width ≤ P.widthMax ∧
      createFinite P.num width = true ∧ t = createContext P width hm s) ∨
    (i = .encode ∧ s.ctxValid = 1 ∧ encodeFinite P s = true ∧ encodeContext P s = .ok t) ∨
    (i = .decode ∧ s.ctxValid = 1 ∧ decodeFinite P s = true ∧ decodeContext P s = .ok t) ∨
    (i = .destroy ∧ s.ctxValid = 1 ∧ t = destroyContext s) := by
  cases i with
  | create width hm =>
    rcases createWith_eq_next (show createWith _ width hm s = _ from h) with h | h
    · exact .inl h
    · exact .inr (.inl ⟨width, hm, rfl, h⟩)
  | encode =>
    rcases ctxValid_cases s with hv | hv
    · cases (encodeWith_no_context P hv).symm.trans h
      exact .inl ⟨.contract, rfl⟩
    · exact .inr (.inr (.inl ⟨rfl, hv, requireFinite_eq_next.1 ((encodeWith_context P hv).symm.trans h)⟩))
  | decode =>
    rcases ctxValid_cases s with hv | hv
    · cases (decodeWith_no_context P hv).symm.trans h
      exact .inl ⟨.contract, rfl⟩
    · exact .inr (.inr (.inr (.inl ⟨rfl, hv, requireFinite_eq_next.1 ((decodeWith_context P hv).symm.trans h)⟩)))
  | destroy =>
    rcases ctxValid_cases s with hv | hv
    · cases (execDestroy_no_context hv).symm.trans h
      exact .inl ⟨.contract, rfl⟩
    · cases (execDestroy_context hv).symm.trans h
      exact .inr (.inr (.inr (.inr ⟨rfl, hv, rfl⟩)))

/-- How a run of the canceller can stop, with any answers. -/
theorem hrcLoop_cases {α : Type} (N : NumFormat α) (w : Nat) (xs : List α) (fuel b : Nat) (ls : List α)
    (answers : List (List (Estimate α))) (sent : List (Query α)) :
    (∃ ls' rest q, hrcLoop N w xs fuel b ls answers sent = .done ls' rest q ∧ ls'.length = ls.length) ∨
    (∃ b' ls' q, hrcLoop N w xs fuel b ls answers sent = .waiting b' ls' q ∧ ls'.length = ls.length ∧
      blockInLine w b' = true) := by
  induction fuel generalizing b ls answers sent with
  | zero => exact .inl ⟨ls, answers, sent, rfl, rfl⟩
  | succ n ih =>
    rw [hrcLoop_succ]
    split
    · rename_i hb
      cases answers with
      | nil => exact .inr ⟨_, _, _, rfl, rfl, hb⟩
      | cons a rest => simpa only [hrcBlock_length] using ih (b + 1) (hrcBlock N b a ls) rest (sent ++ [hrcQuery N xs b])
    · exact .inl ⟨_, _, _, rfl, rfl⟩

/-- A resumed DECODE finishes, or waits for the next answer with nothing of the engine written. -/
theorem decodeResume_eq_ok {P : Params Number} {s t : State} {d : Waiting} {answer : List (Estimate Number)}
    {answers : List (List (Estimate Number))} (h : decodeResume P s d answer answers = .ok t) :
    (∃ ls rest sent, ls.length = d.ls.length ∧
      decodeFinish P { s with estAnswers := rest, estQueries := s.estQueries ++ sent, waiting := none } ls d.xs = .ok t) ∨
    (∃ b ls sent, ls.length = d.ls.length ∧ blockInLine (lineWidth s) b = true ∧
      t = { s with estAnswers := [], estQueries := s.estQueries ++ sent, waiting := some ⟨b, ls, d.xs⟩ }) := by
  unfold decodeResume at h
  rcases hrcLoop_cases P.num (lineWidth s) d.xs (lineWidth s + 1) (d.block + 1) (hrcBlock P.num d.block answer d.ls) answers
    [] with ⟨ls, rest, q, e, hl⟩ | ⟨b, ls, q, e, hl, hb⟩
  · rw [e] at h
    exact .inl ⟨ls, rest, q, hl.trans (hrcBlock_length ..), h⟩
  · rw [e] at h
    cases h
    exact .inr ⟨b, ls, q, hl.trans (hrcBlock_length ..), hb, rfl⟩

/-! ### A step -/

/-- Everything a step can do when it answers a next state. -/
theorem step_cases {P : Params Number} {s t : State} (h : engineStep P s = .next t) :
    t = s ∨
    (∃ rest, s.hostMoves = .reset :: rest ∧ t = hardReset { s with hostMoves := rest }) ∨
    (∃ rest k v, s.waiting = none ∧ s.hostMoves = .writeLineIn k v :: rest ∧ k < lineCapacity P ∧
      t = { s with hostMoves := rest, lineIn := bufPut s.lineIn k v }) ∨
    (∃ m rest reads n, s.waiting = none ∧ s.hostMoves = m :: rest ∧
      t = { s with hostMoves := rest, hostReads := reads, freeCount := n }) ∨
    (∃ c rest e, s.waiting = none ∧ s.hostMoves = .command c :: rest ∧ t = raiseError e { s with hostMoves := rest }) ∨
    (∃ c rest i, s.waiting = none ∧ s.hostMoves = .command c :: rest ∧ decode c = .ok i ∧
      execWith P i { s with hostMoves := rest } = .next t) ∨
    (∃ d a rest, s.waiting = some d ∧ s.estAnswers = a :: rest ∧ resumeFinite P s d a rest = true ∧
      decodeResume P s d a rest = .ok t) := by
  rcases step_eq_next h with ⟨-, -, h⟩ | ⟨m, rest, hw, hm, h⟩ | ⟨d, rest, -, hm, h⟩ | ⟨d, a, rest, hw, ha, -, h⟩
  · exact .inl h
  · rcases hostMove_eq_next h with ⟨rfl, h'⟩ | ⟨c, rfl, h'⟩ | ⟨k, v, rfl, hk, h'⟩ | ⟨r, n, -, -, h'⟩
    · exact .inr (.inl ⟨rest, hm, h'⟩)
    · rcases issueCommand_eq_next h' with ⟨i, hd, h⟩ | h
      · exact .inr (.inr (.inr (.inr (.inr (.inl ⟨c, rest, i, hw, hm, hd, h⟩)))))
      · exact .inr (.inr (.inr (.inr (.inl ⟨c, rest, .illegal, hw, hm, h⟩))))
    · exact .inr (.inr (.inl ⟨rest, k, v, hw, hm, hk, h'⟩))
    · exact .inr (.inr (.inr (.inl ⟨m, rest, _, n, hw, hm, h'⟩)))
  · exact .inr (.inl ⟨rest, hm, h⟩)
  · exact .inr (.inr (.inr (.inr (.inr (.inr ⟨d, a, rest, hw, ha, h⟩)))))

end Sys2Proof.Machine
end

