-- ==== Sys2Proof/Tests/Slice0.lean ====
section
/-! SUPPORT. Tests against the spec's own vectors (95_test_vectors.md), in a fixed-point instance of the open format, and
one witness of the hypotheses of each obligation that has some. The theorems are elaborated one at a time: many kernel
evaluations at once take more threads than the memory limit of the check leaves room for. -/

namespace Sys2Proof.Tests

set_option Elab.async false

open Sys2Proof.Machine

/-! ### Words and well-formedness -/

theorem test_ill_formed_create_width : (Instr.create (2 ^ 24) 0).wellFormed = false := by decide

theorem test_well_formed : (Instr.create (2 ^ 24 - 1) 1).wellFormed ∧ Instr.encode.wellFormed ∧ Instr.decode.wellFormed ∧
    Instr.destroy.wellFormed := by decide

/-- 30_encoding.md rule R91, rule R93, bit by bit: `op`, `zero3`, `h`, `width` = 720. -/
theorem test_decode_create : decode 0b0001_000_1_000000000000001011010000#32 = .ok (.create 720 1) := by decide

theorem test_decode_encode : decode 0b0010_0000000000000000000000000000#32 = .ok .encode := by decide

theorem test_decode_decode : decode 0b0011_0000000000000000000000000000#32 = .ok .decode := by decide

theorem test_decode_destroy : decode 0b0100_0000000000000000000000000000#32 = .ok .destroy := by decide

/-- The reserved words of V51, and one of each field that makes a word reserved. -/
theorem test_decode_reserved : decode 0x00000000#32 = .error .op ∧ decode 0x50000000#32 = .error .op ∧
    decode 0xFFFFFFFF#32 = .error .op ∧ decode 0x20000001#32 = .error .zero28 ∧
    decode 0x12000004#32 = .error .zero3 ∧ decode 0x18000004#32 = .error .zero3 := by decide

theorem test_encode_words : encode (.create 65534 0) = 0x1000FFFE#32 ∧ encode (.create 4 1) = 0x11000004#32 ∧
    encode .encode = 0x20000000#32 ∧ encode .decode = 0x30000000#32 ∧ encode .destroy = 0x40000000#32 := by decide

theorem test_table_words : decodeTableWord 32 0x110002D0 = some (.create 720 1) ∧
    decodeTableWord 32 0x40000000 = some .destroy ∧ decodeTableWord 32 0x20000001 = none ∧
    decodeTableWord 40 0x20000000 = none := by decide

/-! ### A fixed-point instance of the format, to compare with the printed decimals -/

/-- `10^24` of these are 1. -/
def unit : Int := 10 ^ 24

def ofFix (x : Int) : Number := ⟨match x with | .ofNat n => 2 * n | .negSucc n => 2 * n + 1⟩

def toFix (x : Number) : Int := if x.code % 2 = 0 then .ofNat (x.code / 2) else .negSucc (x.code / 2)

def mulFix (a b : Int) : Int := (a * b + unit / 2) / unit

def divFix (a b : Int) : Int := a * unit / b

def piFix : Int := 3141592653589793238462643

/-- The terms of the series of sine and cosine from `term` on. -/
def series (square : Int) : Nat → Nat → Int → Int → Int
  | 0, _, _, acc => acc
  | fuel + 1, k, term, acc =>
    series square fuel (k + 2) (-(mulFix term square) / (((k + 1) * (k + 2) : Nat) : Int)) (acc + term)

def reduceFix (x : Int) : Int := x - 2 * piFix * ((x + piFix) / (2 * piFix))

def sinFix (x : Int) : Int := series (mulFix (reduceFix x) (reduceFix x)) 25 1 (reduceFix x) 0

def cosFix (x : Int) : Int := series (mulFix (reduceFix x) (reduceFix x)) 25 0 unit 0

/-- The fixed-point numbers below `10^36` are its finite ones. -/
def fixed : NumFormat Number where
  add a b := ofFix (toFix a + toFix b)
  sub a b := ofFix (toFix a - toFix b)
  mul a b := ofFix (mulFix (toFix a) (toFix b))
  div a b := ofFix (divFix (toFix a) (toFix b))
  sin a := ofFix (sinFix (toFix a))
  cos a := ofFix (cosFix (toFix a))
  tan a := ofFix (divFix (sinFix (toFix a)) (cosFix (toFix a)))
  le a b := decide (toFix a ≤ toFix b)
  lt a b := decide (toFix a < toFix b)
  decimal m e := ofFix (m * unit / 10 ^ e)
  pi := ofFix piFix
  finite a := decide (|toFix a| < 10 ^ 60)

/-- The parameters of 95_test_vectors.md: `WIDTH_MAX = 1024`, histories of zeros. -/
def params : Params Number := ⟨fixed, 1021, fun _ => ofFix 0, fun _ => ofFix 0⟩

/-- The value is within `10^-12` of `m / 10^12`. -/
def near (v : Number) (m : Int) : Bool := decide (|toFix v - m * 10 ^ 12| ≤ 10 ^ 12)

def allNear (vs : List Number) (ms : List Int) : Bool :=
  decide (vs.length = ms.length) && (List.zipWith near vs ms).all id

/-- A fresh context of width `w` in mode `h` with the values of `ms`, in tenths, in `LINE_IN`. -/
def fresh (w : Nat) (h : BitVec 1) (ms : List Int) : State :=
  createContext params w h { State.reset with lineIn := bufPutAll [] 0 (ms.map fun m => fixed.decimal m 1) }

/-- A context of width 3 in mode `h`, all of whose samples and histories are the number 0. -/
def quietState (P : Params Number) (h : BitVec 1) (answers : List (List (Estimate Number))) : State :=
  { createContext P 3 h State.reset with
    lineIn := bufTabulate 9 fun _ => numZero P.num
    pl := bufTabulate 3 fun _ => numZero P.num
    pc := bufTabulate 3 fun _ => numZero P.num
    estAnswers := answers }

def after (r : Host.Outcome State Fault Refusal) (p : State → Bool) : Bool :=
  match r with
  | .next t => p t
  | _ => false

/-! ### Vectors of 95_test_vectors.md -/

/-- V1. -/
theorem test_carrier_frequency : [3, 4, 5, 6, 7, 8, 16, 20, 72, 73, 74, 146, 219, 320, 640, 720, 1024, 65534].map carrierFreq =
    [3, 3, 3, 5, 5, 5, 11, 13, 49, 51, 51, 101, 151, 219, 439, 493, 701, 44887] := by decide

/-- V22: six inputs through `FI` from the zero state. -/
theorem test_filter_run :
    let r := bqRun fixed (bqInit fixed (fcI fixed)) ([50, -25, 100, 0, 75, -100].map fun m => fixed.decimal m 2)
    allNear (r.1 ++ [r.2.z1, r.2.z2])
      [23006551060, 64508558642, 118900593882, 204081465270, 288608734794, 299743238604, 192491741124,
        -192279922984] := by decide +kernel

/-- V25, the last row. -/
theorem test_colour_row :
    let p := (fixed.decimal 50 2, fixed.decimal (-50) 2, fixed.decimal 25 2)
    let c := ctChroma fixed p
    let rgb := ctToRgb fixed c (ctLuma fixed p)
    allNear [ctLuma fixed p, c.1, c.2, rgb.1, rgb.2.1, rgb.2.2]
      [-117500000000, 360000000000, 442500000000, 502450000000, -502325000000, 235150000000] := by decide +kernel

/-- V30: ENCODE, `w = 3`. -/
theorem test_encode_line : after (encodeWith params (fresh 3 0 [10, 0, 0, 0, 10, 0, 0, 0, 10])) (fun t =>
    allNear (t.lineOut.map Prod.snd ++ [t.fi.z1, t.fi.z2, t.fq.z1, t.fq.z2])
      [289725586035, 595955547493, 107279042110, -45434771467, 22097793477, -437910300, 1736974428] &&
    decide (t.phase = 1 ∧ t.status = 0)) = true := by decide +kernel

/-- P1: the first DECODE of the gray pattern, `w = 4`. -/
theorem test_decode_line : after (decodeWith params (fresh 4 0 [0, 10, 0, 10])) (fun t =>
    allNear (t.lineOut.map Prod.snd)
      [138672071851, -5925221447, -328415860751, 719506860915, 461004076934, 130640585605, 257522187487, -64851469608,
        -336260539955, 730622071178, 432426581203, 247118903345] &&
    decide (t.phase = 1 ∧ t.status = 0 ∧ t.pl = t.lineIn ∧ t.pc = t.lineIn)) = true := by decide +kernel

def component (f m p : Int) : Estimate Number := ⟨fixed.decimal f 3, fixed.decimal m 3, fixed.decimal p 3⟩

def doneWith (r : CancelResult Number) (ms : List Int) : Bool :=
  match r with
  | .done ls [] _ => allNear ls ms
  | _ => false

/-- V41: both ends of the band, the first component in it, two blocks. -/
theorem test_canceller : doneWith (hrcCancel fixed 13 (List.replicate 13 (fixed.decimal 0 0))
      (List.replicate 13 (fixed.decimal 1 0))
      [[component 2000 1000 0], [component 2500 1000 0, component 2299 500 250, component 2100 7000 0]])
    [0, -909297426826, 756802495308, 279415498199, -989358246623, 544021110889, 536572918000, -990607355695, 287903316665,
      750987246772, -912945250728, 8851309290, 10610223144] = true := by decide +kernel

/-- V42. -/
theorem test_block_count : [3, 4, 12, 13, 20, 21, 28, 29, 720, 65534].map blockCount =
    [1, 1, 1, 2, 2, 3, 3, 4, 90, 8192] := by decide

/-- P4: the errors of CREATE, and the CREATE that passes. -/
theorem test_create_codes :
    [65535, 65536, 2000].map (fun w => after (createWith params w 0 State.reset) fun t => t.status == if w < 65535 then 2 else 1)
      = [true, true, true] ∧
    after (createWith params 4 1 State.reset) (fun t => decide (t.status = 0 ∧ t.ctxValid = 1 ∧ t.width = 4 ∧ t.hmode = 1))
      = true := by decide +kernel

theorem test_create_refused : createWith params 2 0 State.reset = .refused (.widthBelowThree 2) := rfl

theorem test_destroy : after (exec .destroy (fresh 3 1 [])) (fun t => decide (t.status = 0 ∧ t.ctxValid = 0)) = true := by
  decide +kernel

/-- P4: a command without a context, fetched and run as the first after reset. -/
theorem test_first_command : after (step (State.reset.withFetchWord 32 0x30000000)) (fun t => decide (t.status = 3)) = true := by
  decide

theorem test_first_reserved_word : after (step (State.reset.withFetchWord 32 0x20000001)) (fun t => decide (t.status = 4))
    = true := by decide

/-- A number of the format that is not finite. -/
def huge : Number := ofFix (10 ^ 61)

/-- A context of width 3 with a line of such numbers. -/
def loud : State := { quietState params 0 [] with lineIn := bufTabulate 9 fun _ => huge }

def refusedNonFinite (r : Host.Outcome State Fault Refusal) : Bool :=
  match r with
  | .refused .nonFiniteValue => true
  | _ => false

/-- 93_implementation_defined.md U3: refused in `LINE_IN`. -/
theorem test_non_finite_line : refusedNonFinite (encodeWith params loud) ∧ refusedNonFinite (decodeWith params loud) := by
  decide +kernel

/-- 93_implementation_defined.md U3: refused in a component of an answer that is selected, ignored in another. -/
theorem test_non_finite_answer :
    decodeFinite params (quietState params 1 [[⟨fixed.decimal 2 0, huge, numZero fixed⟩]]) = false ∧
      decodeFinite params (quietState params 1 [[⟨fixed.decimal 23 1, huge, numZero fixed⟩]]) = true := by decide +kernel

/-! ### Witnesses: the hypotheses of the obligations can be met

A statement said for every value of the open parameters has its witness at `params`, the parameters of these tests. -/

/-- `0` in the engine's format. -/
def zero (P : Params Number) : Number := numZero P.num

/-- A context of width 3 in mode `h` whose histories and first `n` elements of `LINE_IN` are 0, with the agents' coming
moves. -/
def live (P : Params Number) (h : BitVec 1) (n : Nat) (moves : List HostMove) (answers : List (List (Estimate Number))) :
    State :=
  { quietState P h answers with lineIn := bufTabulate n fun _ => zero P, hostMoves := moves }

def sinAt (P : Params Number) (i : Nat) : Number := P.num.sin (carrierAngle P.num 3 i)

def cosAt (P : Params Number) (i : Nat) : Number := P.num.cos (carrierAngle P.num 3 i)

/-- A live context of width 3 whose first `n` elements of `LINE_IN` are 0. -/
abbrev Ready (P : Params Number) (s : State) (n : Nat) : Prop := LineReady P s 3 n (sinAt P) (cosAt P) fun _ => zero P

/-- What an engine computes of a line of zeros is finite. -/
structure Works (P : Params Number) : Prop where
  create : createFinite P.num 3 = true
  encode : encodeFinite P (live P 0 9 [] []) = true
  plain : decodeFinite P (live P 0 9 [] []) = true
  waits : decodeFinite P (live P 1 9 [] []) = true
  harmonic : decodeFinite P (live P 1 9 [] [[]]) = true

theorem params_works : Works params := by constructor <;> decide +kernel

section
variable (P : Params Number) (h : BitVec 1) {n : Nat} (moves : List HostMove) (answers : List (List (Estimate Number)))

theorem live_ready {k : Nat} (hk : k ≤ n) :
    Ready P (live P h n moves answers) k where
  valid := rfl
  width := rfl
  width_low := by decide
  width_high := (widthMax_bounds P).1
  sin i hi := (bufGet_bufTabulate _ _ i).trans (if_pos hi)
  cos i hi := (bufGet_bufTabulate _ _ i).trans (if_pos hi)
  input i hi := (bufGet_bufTabulate _ _ i).trans (if_pos (by omega))

theorem live_unwritten : bufGet (live P h n moves answers).lineIn n = none :=
  (bufGet_bufTabulate _ _ n).trans (if_neg (by omega))

theorem live_histories {i : Nat} (hi : i < 3) :
    bufGet (live P h n moves answers).pl i = some (zero P) ∧ bufGet (live P h n moves answers).pc i = some (zero P) :=
  ⟨(bufGet_bufTabulate _ _ i).trans (if_pos hi), (bufGet_bufTabulate _ _ i).trans (if_pos hi)⟩

theorem live_inv {P : Params Number} (W : Works P) (hn : n ≤ 9) : Inv P (live P h n moves answers) where
  memory := ⟨bufTabulate_wf _ _, bufTabulate_wf _ _, List.Pairwise.nil, bufTabulate_wf _ _, bufTabulate_wf _ _,
    bufTabulate_wf _ _, List.Pairwise.nil⟩
  lineIn_bound p hp := by
    have h1 : p.1 < n := indicesBelow_bufTabulate n (fun _ => zero P) p hp
    have h2 := (widthMax_bounds P).1
    simp only [lineCapacity]; omega
  lineOut_bound p hp := by cases hp
  lineOut_finite v hv := by cases hv
  status_code := by show (0#8).toNat ≤ 4; decide
  context _ :=
    have f := createFinite_eq_true W.create
    { width_low := show 3 ≤ 3 from Nat.le_refl 3
      width_high := (widthMax_bounds P).1
      sin_table := rfl
      cos_table := rfl
      fi_coefficients := ⟨rfl, rfl, rfl, rfl, rfl⟩
      fq_coefficients := ⟨rfl, rfl, rfl, rfl, rfl⟩
      cb_bound := fun p hp => by cases hp
      pl_bound := indicesBelow_bufTabulate _ _
      pc_bound := indicesBelow_bufTabulate _ _
      pl_filled := filledBelow_bufTabulate _ _
      pc_filled := filledBelow_bufTabulate _ _
      sin_finite := f.1
      cos_finite := f.2.1
      fi_finite := f.2.2.1
      fq_finite := f.2.2.2
      cb_finite := fun p hp => by cases hp
      waiting_harmonic := fun d hd => by cases hd }
  no_context hv := absurd hv (show ¬ 1#1 = 0#1 by decide)

theorem live_windows : ∃ sw cw, readWindows (live P h n moves answers) = .ok (sw, cw) :=
  ⟨_, _, readWindows_eq_ok.2 ⟨cgenWindow_of_get (live_ready P h moves answers (Nat.zero_le n)).sin,
    cgenWindow_of_get (live_ready P h moves answers (Nat.zero_le n)).cos⟩⟩

theorem live_capacity : 9 ≤ lineCapacity P := by
  have := (widthMax_bounds P).1
  simp only [lineCapacity]; omega

theorem live_samples (hn : 3 ≤ n) : ∃ x, readSamples P (live P h n moves answers) = .ok x := by
  have hc := live_capacity P
  exact ⟨_, readSamples_of_get (by show 3 ≤ _; omega) fun i hi =>
    (live_ready P h moves answers (Nat.le_refl n)).input i (Nat.lt_of_lt_of_le hi hn)⟩

theorem live_encodes (moves : List HostMove) :
    ∃ t, encodeContext P (live P h 9 moves answers) = .ok t ∧ t.phase = 1 ∧ t.ctxValid = 1 ∧
      t.waiting = none := by
  obtain ⟨sw, cw, hw⟩ := live_windows P h (n := 9) moves answers
  have hc := live_capacity P
  have hp := readPixels_of_get (P := P) (s := live P h 9 moves answers) hc
    (live_ready P h moves answers (Nat.le_refl 9)).input
  exact ⟨_, encodeContext_of_reads hw hp (Nat.le_refl 3) (show 3 ≤ _ by omega),
    show togglePhase 0#1 = 1#1 by decide, rfl, rfl⟩

theorem live_decodes : ∃ t, decodeContext P (live P 0 9 moves answers) = .ok t ∧ t.waiting = none ∧
    t.ctxValid = 1 := by
  obtain ⟨sw, cw, hw⟩ := live_windows P 0 (n := 9) moves answers
  obtain ⟨x, hx⟩ := live_samples P 0 (n := 9) moves answers (by decide)
  have hpl := readHistory_of_get (name := .pl) (s := live P 0 9 moves answers) fun i hi =>
    (live_histories P (n := 9) 0 moves answers hi).1
  have hpc := readHistory_of_get (name := .pc) (s := live P 0 9 moves answers) fun i hi =>
    (live_histories P (n := 9) 0 moves answers hi).2
  have hxl := readSamples_length hx
  exact ⟨_, (decodeContext_plain rfl hx hpc hpl).trans (decodeFinish_of_reads hw hx (Nat.le_refl 3) (live_capacity P)
    (combLuma_length hxl (readHistory_length hpl)) (combChroma_length hxl (readHistory_length hpc))), rfl, rfl⟩

theorem live_waits {P : Params Number} (W : Works P) :
    ∃ t d, decodeContext P (live P 1 9 moves []) = .ok t ∧ t.waiting = some d ∧
    t = { live P 1 9 moves [] with estQueries := t.estQueries, waiting := some d } ∧
    WaitingGood P.num 3 d := by
  obtain ⟨x, hx⟩ := live_samples P 1 (n := 9) moves [] (by decide)
  have hm : (live P 1 9 moves []).hmode ≠ 0 := show ¬ 1#1 = 0#1 by decide
  have hpc := readHistory_of_get (name := .pc) (s := live P 1 9 moves []) fun i hi =>
    (live_histories P (n := 9) 1 moves [] hi).2
  have hxl := readSamples_length hx
  have hcl := combChroma_length (N := P.num) hxl (readHistory_length hpc)
  obtain ⟨xs, r, e, hxs, hr, hf⟩ := decodeFinite_harmonic hm hx hpc W.waits
  have ht : decodeContext P (live P 1 9 moves []) = .ok _ := decodeContext_harmonic hm hx hpc
  rw [← e] at ht hcl hr
  rcases decodeAfterCancel_finite hxs hr hf rfl with ⟨_, _, _, _, _, _, h, -⟩ | ⟨b, ls, sent, h, f1, f2, -⟩
  · cases h
  · cases h
    exact ⟨_, _, ht, rfl, rfl, hxl, hcl, show blockInLine 3 0 = true by decide, f1, f2⟩

end

theorem witness_DecodeOfEncodeIsTheCommand : (Instr.create 16777215 1).wellFormed = true := by decide

theorem witness_AcceptedWordIsTheEncoding : decode 0x11FFFFFF#32 = .ok (.create 16777215 1) := by decide

/-- One word for each branch of the procedure. -/
theorem witness_DecodingProcedureByMatchAndMask :
    0x11FFFFFF#32 &&& 0xFE000000#32 = 0x10000000#32 ∧ ¬ 0x12000000#32 &&& 0xFE000000#32 = 0x10000000#32 ∧
    decode 0x11FFFFFF#32 = .ok (.create 16777215 1) ∧ decode 0x20000000#32 = .ok .encode ∧
    decode 0x30000000#32 = .ok .decode ∧ decode 0x40000000#32 = .ok .destroy ∧
    decode 0x12000000#32 = .error .zero3 := by decide

theorem witness_StepRunsTheDecodedCommand :
    let s := { State.reset with hostMoves := [.command 0x11FFFFFF#32] }
    s.waiting = none ∧ s.hostMoves = .command 0x11FFFFFF#32 :: [] ∧
      decode 0x11FFFFFF#32 = .ok (.create 16777215 1) ∧ (Instr.create 16777215 1).wellFormed = true := by decide

theorem witness_ReservedWordReportsIllegal :
    let s := { State.reset with hostMoves := [.command 0x12000000#32] }
    s.waiting = none ∧ s.hostMoves = .command 0x12000000#32 :: [] ∧
      0x12000000#32 &&& 0xFE000000#32 ≠ 0x10000000#32 ∧ 0x12000000#32 ≠ 0x20000000#32 ∧
      0x12000000#32 ≠ 0x30000000#32 ∧ 0x12000000#32 ≠ 0x40000000#32 := by decide

/-- The last element of a line buffer, and the first index past it. -/
theorem witness_HostMovesOnTheIdleEngine :
    ∃ k, 3 * Config.params.widthMax = k + 1 ∧ State.reset.waiting = none ∧
      (∃ s : State, s.waiting = none ∧ s.hostMoves = .readLineOut k :: [] ∧ bufGet s.lineOut k = some ⟨7⟩) ∧
      (∃ s : State, s.waiting = none ∧ s.hostMoves = .writeLineIn k ⟨7⟩ :: []) ∧
      (∃ s : State, s.waiting = none ∧ s.hostMoves = .reset :: []) ∧
      ∃ s : State, s.waiting = none ∧ s.hostMoves = .writeLineIn (k + 1) ⟨7⟩ :: [] := by
  have hm := (widthMax_bounds Config.params).1
  refine ⟨3 * Config.params.widthMax - 1, by omega, rfl,
    ⟨{ State.reset with
        hostMoves := [.readLineOut (3 * Config.params.widthMax - 1)]
        lineOut := [(3 * Config.params.widthMax - 1, ⟨7⟩)] }, rfl, rfl, if_pos rfl⟩,
    ⟨{ State.reset with hostMoves := [_] }, rfl, rfl⟩, ⟨{ State.reset with hostMoves := [_] }, rfl, rfl⟩,
    ⟨{ State.reset with hostMoves := [_] }, rfl, rfl⟩⟩

/-- An element that nothing has written, the last of `LINE_OUT`. -/
theorem witness_LineOutReadIsIdempotent :
    ∃ k, 3 * Config.params.widthMax = k + 1 ∧ ∃ s : State, s.waiting = none ∧ bufGet s.lineOut k = none ∧
      s.hostMoves = .readLineOut k :: .readLineOut k :: [] := by
  have hm := (widthMax_bounds Config.params).1
  exact ⟨3 * Config.params.widthMax - 1, by omega, { State.reset with hostMoves := [_, _] }, rfl, rfl, rfl⟩

/-- A live context, and the highest register and the first number past it; no context, and registers 2 and 4. -/
theorem witness_ControlRegisterMap :
    (live params 1 0 [.readControl 4] []).waiting = none ∧ (live params 1 0 [.readControl 4] []).ctxValid = 1 ∧
      (live params 1 0 [.readControl 4] []).hostMoves = .readControl 4 :: [] ∧
      (live params 1 0 [.readControl 5] []).hostMoves = .readControl 5 :: [] ∧
      State.reset.waiting = none ∧ State.reset.ctxValid = 0 ∧
      { State.reset with hostMoves := [.readControl 2] }.hostMoves = .readControl 2 :: [] ∧
      { State.reset with hostMoves := [.readControl 4] }.hostMoves = .readControl 4 :: [] :=
  ⟨rfl, rfl, rfl, rfl, rfl, rfl, rfl, rfl⟩

theorem witness_UnansweredQueryIsStuckButForReset :
    let s := { State.reset with waiting := some ⟨0, [], []⟩ }
    s.waiting = some ⟨0, [], []⟩ ∧ s.estAnswers = [] ∧ s.hostMoves.head? ≠ some .reset ∧
      { s with hostMoves := [.reset] }.hostMoves = .reset :: [] := by decide

theorem witness_ContractViolationChangesOnlyStatus :
    State.reset.ctxValid = 0 ∧ (live params 0 0 [] []).ctxValid = 1 := ⟨rfl, rfl⟩

/-- Both edges of each clause; the storage clause has widths only where `WIDTH_MAX` is below 65534. -/
theorem witness_CreateErrorsInOrder :
    State.reset.ctxValid = 0 ∧ params.widthMax = 1024 ∧ params.widthMax < 1025 ∧ params.widthMax < 65534 := by decide

theorem witness_ErrorLeavesEverythingButStatus :
    ∃ t, State.reset.waiting = none ∧ issueCommand exec 0x40000000#32 State.reset = .next t ∧ t.waiting = none ∧
      t.status ≠ 0 := ⟨_, rfl, rfl, rfl, show ¬ 3#8 = 0#8 by decide⟩

theorem witness_CreateBuildsTheContext :
    State.reset.ctxValid = 0 ∧ 3 ≤ 3 ∧ 3 ≤ params.widthMax ∧ createFinite params.num 3 = true :=
  ⟨rfl, Nat.le_refl 3, (widthMax_bounds params).1, params_works.create⟩

theorem witness_DestroyEndsTheContext : (live params 1 0 [] []).ctxValid = 1 := rfl

theorem witness_CreateAfterDestroyIsFresh :
    (live params 1 0 [] []).ctxValid = 1 ∧ 3 ≤ 3 ∧ 3 ≤ params.widthMax ∧ createFinite params.num 3 = true :=
  ⟨rfl, Nat.le_refl 3, (widthMax_bounds params).1, params_works.create⟩

/-- The least width, where the ratio is 1, and the greatest. -/
theorem witness_CarrierFrequencyRange :
    (3 ≤ 3 ∧ 3 ≤ 65534 ∧ carrierFreq 3 = 3) ∧ 3 ≤ 65534 ∧ 65534 ≤ 65534 ∧ carrierFreq 65534 = 44887 := by decide

theorem witness_FilterInitialisation : (0 : ℝ) < fcQ realFormat ∧ fcI realFormat < 0.5 := by
  constructor <;> norm_num [fcI, fcQ, realFormat]

theorem witness_SecondHalfIsTheNegatedFirstHalf : 3 ≤ 3 ∧ 2 < 3 := by decide

theorem witness_CarrierTablesAreSineAndCosine : (3 ≤ 3 ∧ 0 < 2 * 3) ∧ 3 < 2 * 3 ∧ 5 < 2 * 3 := by decide

theorem witness_WindowIsTheHalfThePhaseSelects :
    ∀ i, i < 2 * 3 → bufGet (live params 0 0 [] []).sin i = some (sinAt params i) :=
  (live_ready params 0 [] [] (Nat.le_refl 0)).sin

theorem witness_FilterBatchingIsInvisible :
    [[1, 2], [], [3]].flatten = [[1], [2, 3]].flatten ∧ ([[1, 2], [], [3]] : List (List Nat)) ≠ [[1], [2, 3]] := by decide

theorem witness_FilterObeysTheDifferenceEquation :
    (⟨1, 2, 1, 0, 0, 0, 0⟩ : Biquad ℝ).z1 = 0 ∧ (⟨1, 2, 1, 0, 0, 0, 0⟩ : Biquad ℝ).z2 = 0 ∧ 0 < ([1] : List ℝ).length :=
  ⟨rfl, rfl, Nat.one_pos⟩

theorem witness_FiltersAreStableUnitGainLowPass :
    (fcI realFormat = fcI realFormat ∨ fcI realFormat = fcQ realFormat) ∧
      (fcQ realFormat = fcI realFormat ∨ fcQ realFormat = fcQ realFormat) := ⟨.inl rfl, .inr rfl⟩

theorem witness_EncodeComputesTheCompositeLine :
    Ready params (live params 0 9 [] []) (3 * 3) ∧
      encodeFinite params (live params 0 9 [] []) = true := ⟨live_ready params 0 [] [] (Nat.le_refl 9), params_works.encode⟩

theorem witness_GrayLineEncodesToItsLuma :
    let F : Biquad ℝ := ⟨1, 2, 1, 0, 0, 0, 0⟩
    F.z1 = 0 ∧ F.z2 = 0 ∧ 3 ≤ ([1, 2, 3] : List ℝ).length ∧
      ([0, 0, 0] : List ℝ).length = ([1, 2, 3] : List ℝ).length := ⟨rfl, rfl, Nat.le_refl 3, rfl⟩

/-- The first and the last element that ENCODE reads. -/
theorem witness_EncodeFaultsAtTheFirstUnwrittenElement :
    (Ready Config.params (live Config.params 0 0 [] []) 0 ∧ bufGet (live Config.params 0 0 [] []).lineIn 0 = none) ∧
      Ready Config.params (live Config.params 0 8 [] []) 8 ∧ 8 < 3 * 3 ∧ bufGet (live Config.params 0 8 [] []).lineIn 8 = none :=
  ⟨⟨live_ready Config.params 0 [] [] (Nat.le_refl 0), live_unwritten Config.params 0 [] []⟩,
    live_ready Config.params 0 [] [] (Nat.le_refl 8), by decide,
    live_unwritten Config.params 0 [] []⟩

theorem witness_PlainDecodeComputesTheRecoveredLine :
    Ready params (live params 0 9 [] []) 3 ∧ (live params 0 9 [] []).hmode = 0 ∧
      (∀ i, i < 3 → bufGet (live params 0 9 [] []).pl i = some (zero params) ∧
        bufGet (live params 0 9 [] []).pc i = some (zero params)) ∧
      decodeFinite params (live params 0 9 [] []) = true :=
  ⟨live_ready params 0 [] [] (by decide), rfl, fun _ hi => live_histories params 0 [] [] hi, params_works.plain⟩

theorem witness_HarmonicDecodeComputesTheCorrectedLine :
    Ready params (live params 1 9 [] [[]]) 3 ∧ (live params 1 9 [] [[]]).hmode = 1 ∧
      (live params 1 9 [] [[]]).waiting = none ∧
      (∀ i, i < 3 → bufGet (live params 1 9 [] [[]]).pc i = some (zero params)) ∧
      (live params 1 9 [] [[]]).estAnswers = [[]] ++ [] ∧ ([[]] : List (List (Estimate Number))).length = blockCount 3 ∧
      decodeFinite params (live params 1 9 [] [[]]) = true :=
  ⟨live_ready params 1 [] [[]] (by decide), rfl, rfl, fun _ hi => (live_histories params 1 [] [[]] hi).2, rfl, rfl,
    params_works.harmonic⟩

theorem witness_HarmonicDecodeWaitsForTheNextAnswer :
    Ready params (live params 1 9 [] []) 3 ∧ (live params 1 9 [] []).hmode = 1 ∧
      (∀ i, i < 3 → bufGet (live params 1 9 [] []).pc i = some (zero params)) ∧
      (live params 1 9 [] []).estAnswers.length < blockCount 3 ∧
      decodeFinite params (live params 1 9 [] []) = true :=
  ⟨live_ready params 1 [] [] (by decide), rfl, fun _ hi => (live_histories params 1 [] [] hi).2, by decide,
    params_works.waits⟩

theorem witness_LateAnswersGiveTheSameDecode :
    ∃ t, (live params 1 9 [] []).waiting = none ∧ ([[]] : List (List (Estimate Number))) ≠ [] ∧
      (live params 1 9 [] []).hostMoves.head? ≠ some .reset ∧
      execWith params .decode { live params 1 9 [] [] with estAnswers := [] } = .next t ∧ t.waiting.isSome := by
  obtain ⟨t, d, ht, hd, -, -⟩ := live_waits [] params_works
  exact ⟨t, rfl, by decide, by decide, (decodeWith_context (s := live params 1 9 [] []) params rfl).trans
    (requireFinite_eq_next.2 ⟨params_works.waits, ht⟩), by rw [hd]; rfl⟩

/-- The first and the last element that DECODE reads. -/
theorem witness_DecodeFaultsAtTheFirstUnwrittenElement :
    (Ready Config.params (live Config.params 0 0 [] []) 0 ∧ bufGet (live Config.params 0 0 [] []).lineIn 0 = none) ∧
      Ready Config.params (live Config.params 1 2 [] []) 2 ∧ 2 < 3 ∧ bufGet (live Config.params 1 2 [] []).lineIn 2 = none :=
  ⟨⟨live_ready Config.params 0 [] [] (Nat.le_refl 0), live_unwritten Config.params 0 [] []⟩,
    live_ready Config.params 1 [] [] (Nat.le_refl 2), by decide,
    live_unwritten Config.params 1 [] []⟩

theorem witness_HistoryIsTheRawInputLine :
    ∃ t, (live params 0 9 [] []).ctxValid = 1 ∧ t.ctxValid = 1 ∧ t.waiting = none ∧
      execWith params .decode (live params 0 9 [] []) = .next t ∧ 2 < lineWidth (live params 0 9 [] []) := by
  obtain ⟨t, ht, hw, hv⟩ := live_decodes params [] []
  exact ⟨t, rfl, hv, hw, (decodeWith_context (s := live params 0 9 [] []) params rfl).trans
    (requireFinite_eq_next.2 ⟨params_works.plain, ht⟩), by decide⟩

/-- The least line, and both sides of a border between two write regions. -/
theorem witness_WriteRegionsPartitionTheLine : (1 ≤ 1 ∧ 0 < 1) ∧ 1 ≤ 13 ∧ 11 < 13 ∧ 12 < 13 := by decide

theorem witness_CancellerCorrectsEachPositionOnce :
    1 ≤ 13 ∧ (List.replicate 13 (0 : ℝ)).length = 13 ∧ blockCount 13 ≤ ([[], []] : List (List (Estimate ℝ))).length ∧
      (List.replicate 13 (0 : ℝ))[12]? = some 0 := ⟨by decide, rfl, by decide, rfl⟩

theorem witness_ReadAfterWrite : 8 < 9 ∧ 9 ≤ 9 := by decide

/-- The last element that ENCODE reads, and the last that DECODE reads. -/
theorem witness_NonFiniteInputIsRefused :
    loud.ctxValid = 1 ∧ lineWidth loud = 3 ∧ 3 ≤ params.widthMax ∧ params.num.finite huge = false ∧ 8 < 3 * 3 ∧ 2 < 3 ∧
      (∀ i, i < 2 * 3 → bufGet loud.sin i = some (fixed.sin (carrierAngle fixed 3 i)) ∧
        bufGet loud.cos i = some (fixed.cos (carrierAngle fixed 3 i))) ∧
      (∀ i, i < 3 * 3 → bufGet loud.lineIn i = some huge) ∧
      ∀ i, i < 3 → bufGet loud.lineIn i = some huge ∧ bufGet loud.pl i = some (numZero fixed) ∧
        bufGet loud.pc i = some (numZero fixed) :=
  ⟨rfl, rfl, by decide, by decide +kernel, by decide, by decide,
    fun i hi => ⟨(bufGet_bufTabulate _ _ i).trans (if_pos hi), (bufGet_bufTabulate _ _ i).trans (if_pos hi)⟩,
    fun i hi => (bufGet_bufTabulate _ _ i).trans (if_pos hi),
    fun i hi => ⟨(bufGet_bufTabulate _ _ i).trans (if_pos (by omega)), (bufGet_bufTabulate _ _ i).trans (if_pos hi),
      (bufGet_bufTabulate _ _ i).trans (if_pos hi)⟩⟩

/-- An ENCODE, and a DECODE, that complete. -/
theorem witness_CompletedLineIsFinite :
    (∃ t, 3 * 3 = 3 * lineWidth (live params 0 9 [] []) ∧ (live params 0 9 [] []).ctxValid = 1 ∧
      execWith params .encode (live params 0 9 [] []) = .next t ∧ t.waiting = none) ∧
    ∃ t, 3 = lineWidth (live params 0 9 [] []) ∧ (live params 0 9 [] []).ctxValid = 1 ∧
      execWith params .decode (live params 0 9 [] []) = .next t ∧ t.waiting = none := by
  constructor
  · obtain ⟨t, ht, -, -, hw⟩ := live_encodes params 0 [] []
    exact ⟨t, rfl, rfl, (encodeWith_context (s := live params 0 9 [] []) params rfl).trans
      (requireFinite_eq_next.2 ⟨params_works.encode, ht⟩), hw⟩
  · obtain ⟨t, ht, hw, -⟩ := live_decodes params [] []
    exact ⟨t, rfl, rfl, (decodeWith_context (s := live params 0 9 [] []) params rfl).trans
      (requireFinite_eq_next.2 ⟨params_works.plain, ht⟩), hw⟩

/-- Open parameters in whose format every number is finite. -/
def allFinite : Params Number := { params with num := { fixed with finite := fun _ => true } }

/-- Such a format, and the width that CREATE refuses. -/
theorem witness_FiniteFormatsAreNeverRefused :
    (∀ v, allFinite.num.finite v = true) ∧ createWith allFinite 2 0 State.reset = .refused (.widthBelowThree 2) :=
  ⟨fun _ => rfl, rfl⟩

/-- A live context about to ENCODE: the hypotheses of the statements on steps from a state of the invariant. -/
theorem live_step {P : Params Number} (W : Works P) :
    ∃ t, Inv P (live P 0 9 [.command 0x20000000#32] []) ∧
      engineStep P (live P 0 9 [.command 0x20000000#32] []) = .next t ∧
      (live P 0 9 [.command 0x20000000#32] []).ctxValid = 1 ∧ t.ctxValid = 1 ∧
      t.phase ≠ (live P 0 9 [.command 0x20000000#32] []).phase := by
  obtain ⟨t, ht, hp, hv, -⟩ := live_encodes P 0 [] []
  refine ⟨t, live_inv 0 _ _ W (Nat.le_refl 9), ?_, rfl, hv, ?_⟩
  · exact (step_of_idle (s := live P 0 9 [.command 0x20000000#32] []) rfl rfl).trans
      ((encodeWith_context (s := live P 0 9 [] []) P rfl).trans (requireFinite_eq_next.2 ⟨W.encode, ht⟩))
  · rw [hp]; show ¬ 1#1 = 0#1; decide

/-- Each clause: an ENCODE with the parameters of the tests, and a host write with the engine's own. -/
theorem witness_EveryStepKeepsTheInvariant :
    (∃ s t, Inv params s ∧ engineStep params s = .next t ∧ s.ctxValid = 1 ∧ t.phase ≠ s.phase) ∧
    ∃ t, Inv Config.params { State.reset with hostMoves := [.writeLineIn 0 ⟨7⟩] } ∧
      step { State.reset with hostMoves := [.writeLineIn 0 ⟨7⟩] } = .next t ∧ t.lineIn ≠ [] := by
  have ⟨_, hI, hs, hv, _, hp⟩ := live_step params_works
  refine ⟨⟨_, _, hI, hs, hv, hp⟩, { State.reset with lineIn := [(0, ⟨7⟩)] }, ?_, ?_, ?_⟩
  · exact
    { memory := ⟨.nil, .nil, .nil, .nil, .nil, .nil, .nil⟩
      lineIn_bound := fun p hp => by cases hp
      lineOut_bound := fun p hp => by cases hp
      lineOut_finite := fun v hv => by cases hv
      status_code := by show (0#8).toNat ≤ 4; decide
      context := fun hv => absurd hv (show ¬ 0#1 = 1#1 by decide)
      no_context := fun _ => ⟨rfl, rfl, rfl, rfl, rfl, rfl⟩ }
  · have hc := live_capacity Config.params
    refine (step_of_idle (s := { State.reset with hostMoves := [.writeLineIn 0 ⟨7⟩] }) rfl rfl).trans ?_
    exact if_pos (show 0 < lineCapacity Config.params by omega)
  · show ¬ [(0, (⟨7⟩ : Number))] = []
    decide

theorem witness_LiveContextKeepsItsConstants :
    ∃ s t, engineStep params s = .next t ∧ s.ctxValid = 1 ∧ t.ctxValid = 1 ∧ t ≠ s :=
  have ⟨_, _, hs, hv, ht, hp⟩ := live_step params_works
  ⟨_, _, hs, hv, ht, fun h => hp (by rw [h])⟩

theorem witness_PhaseTogglesOnlyOnLineCommands :
    ∃ s t, engineStep params s = .next t ∧ s.ctxValid = 1 ∧ t.ctxValid = 1 ∧ t.phase ≠ s.phase :=
  have ⟨_, _, hs, hv, ht, hp⟩ := live_step params_works
  ⟨_, _, hs, hv, ht, hp⟩

theorem witness_FiltersAdvanceOnlyByProcess :
    ∃ s t, Inv params s ∧ engineStep params s = .next t ∧ s.ctxValid = 1 ∧ t.ctxValid = 1 ∧ t.phase ≠ s.phase :=
  have ⟨_, hI, hs, hv, ht, hp⟩ := live_step params_works
  ⟨_, _, hI, hs, hv, ht, hp⟩

theorem live_writes (P : Params Number) : engineStep P (live P 0 0 [.writeLineIn 0 ⟨7⟩] []) =
    .next { live P 0 0 [] [] with lineIn := [(0, ⟨7⟩)] } := by
  have hc := live_capacity P
  refine (step_of_idle (s := live P 0 0 [.writeLineIn 0 ⟨7⟩] []) rfl rfl).trans ?_
  exact if_pos (show 0 < lineCapacity P by omega)

/-- A step that changes `LINE_IN`; ENCODE above is one that changes `LINE_OUT`. -/
theorem witness_LineBuffersHaveTheirWriters :
    ∃ t, Inv params (live params 0 0 [.writeLineIn 0 ⟨7⟩] []) ∧
      engineStep params (live params 0 0 [.writeLineIn 0 ⟨7⟩] []) = .next t ∧
      t.lineIn ≠ (live params 0 0 [.writeLineIn 0 ⟨7⟩] []).lineIn :=
  ⟨_, live_inv 0 _ _ params_works (by decide), live_writes params, show ¬ [(0, (⟨7⟩ : Number))] = [] by decide⟩

theorem live_faults {P : Params Number} (W : Works P) :
    (Inv P (live P 0 0 [.command 0x30000000#32] []) ∧
      engineStep P (live P 0 0 [.command 0x30000000#32] []) = .fault (.noValue .lineIn 0)) ∧
    ∃ s, Inv P s ∧ engineStep P s = .fault .estimatorNeverAnswers := by
  refine ⟨⟨live_inv 0 _ _ W (by decide), ?_⟩, ?_⟩
  · have hr : readLineIn P (live P 0 0 [] []) 0 = .error (.noValue .lineIn 0) :=
      memRead_eq_error.2 (.inr ⟨Nat.lt_of_lt_of_le (by decide) (live_capacity P), rfl, rfl⟩)
    have hx : readSamples P (live P 0 0 [] []) = .error (.noValue .lineIn 0) :=
      collect_eq_error.2 ⟨0, show 0 < 3 by decide, hr, fun i hi => absurd hi (Nat.not_lt_zero i)⟩
    refine (step_of_idle (s := live P 0 0 [.command 0x30000000#32] []) rfl rfl).trans
      ((decodeWith_context (s := live P 0 0 [] []) P rfl).trans (requireFinite_eq_fault.2 ⟨?_, ?_⟩))
    · simp only [decodeFinite, hx]
    · simp only [decodeContext, bind, Except.bind, hx]
  · obtain ⟨t, d, -, hd, ht, hg⟩ := live_waits [] W
    have hI := live_inv (P := P) 1 (n := 9) [] [] W (Nat.le_refl 9)
    have hC := hI.context rfl
    refine ⟨t, ?_, step_of_waiting_silence hd (by rw [ht]; show (none : Option HostMove) ≠ some .reset; decide)
      (by rw [ht]; rfl)⟩
    rw [ht]
    exact ⟨hI.memory, hI.lineIn_bound, hI.lineOut_bound, hI.lineOut_finite, hI.status_code,
      fun _ => ⟨hC.width_low, hC.width_high, hC.sin_table, hC.cos_table, hC.fi_coefficients, hC.fq_coefficients,
        hC.cb_bound, hC.pl_bound, hC.pc_bound, hC.pl_filled, hC.pc_filled, hC.sin_finite, hC.cos_finite, hC.fi_finite,
        hC.fq_finite, hC.cb_finite, fun d' hd' => by
          cases hd'
          exact ⟨rfl, hg, fun i hi => by
            rw [(live_ready P 1 [] [] (Nat.le_refl 9)).input i (Nat.lt_of_lt_of_le hi (show 3 ≤ 9 by decide))]; rfl⟩⟩,
      fun h0 => absurd h0 (show ¬ 1#1 = 0#1 by decide)⟩

/-- A line command with nothing written, and a waiting DECODE with no answer coming. -/
theorem witness_OnlyUnwrittenInputOrSilenceFaults :
    (Inv params (live params 0 0 [.command 0x30000000#32] []) ∧
      engineStep params (live params 0 0 [.command 0x30000000#32] []) = .fault (.noValue .lineIn 0)) ∧
    ∃ s, Inv params s ∧ engineStep params s = .fault .estimatorNeverAnswers := live_faults params_works

end Sys2Proof.Tests
end

/-! PROOFS, family 30_encoding.md: the match/mask rows of rule R95, and the words no row matches. -/

namespace Sys2Proof

/-- The mask of the CREATE row keeps `op` and `zero3`, so the row matches when these seven bits are 8. -/
theorem and_createMask_eq_iff (c : CommandWord) : c &&& 0xFE000000#32 = 0x10000000#32 ↔ c.toNat / 2 ^ 25 = 8 := by
  have hc := c.isLt
  have hmask : c &&& 0xFE000000#32 = c >>> 25 <<< 25 := (BitVec.shiftLeft_ushiftRight (x := c) (n := 25)).symm
  rw [hmask, ← BitVec.toNat_inj, BitVec.toNat_shiftLeft, BitVec.toNat_ushiftRight, Nat.shiftLeft_eq,
    Nat.shiftRight_eq_div_pow, BitVec.toNat_ofNat]
  omega

theorem hField_eq_ofBool (c : CommandWord) : hField c = BitVec.ofBool (c.getLsbD 24) := by
  rw [← BitVec.toNat_inj, hField_toNat, BitVec.toNat_ofBool, BitVec.getLsbD, Nat.toNat_testBit]

/-- A word that matches no row of the opcode table is reserved (30_encoding.md rule R94): a word the decoder accepts
matches the row of its command. -/
theorem decode_error_of_no_row {c : CommandWord} (hcreate : c &&& 0xFE000000#32 ≠ 0x10000000#32)
    (hencode : c ≠ 0x20000000#32) (hdecode : c ≠ 0x30000000#32) (hdestroy : c ≠ 0x40000000#32) :
    ∃ r, decode c = .error r := by
  cases hd : decode c with
  | error r => exact ⟨r, rfl⟩
  | ok i =>
    cases i with
    | create width h => exact absurd ((and_createMask_eq_iff c).2 (decode_eq_create.1 hd).1) hcreate
    | encode => exact absurd (decode_eq_encode.1 hd) hencode
    | decode => exact absurd (decode_eq_decode.1 hd) hdecode
    | destroy => exact absurd (decode_eq_destroy.1 hd) hdestroy

/-- Settles O3: the four rows by what the decoder accepts, the rest by `decode_error_of_no_row`. -/
theorem decodingProcedureByMatchAndMask : Obligations.DecodingProcedureByMatchAndMask := by
  intro c
  split_ifs with hcreate hencode hdecode hdestroy
  · exact decode_eq_create.2 ⟨(and_createMask_eq_iff c).1 hcreate, rfl, (hField_eq_ofBool c).symm⟩
  · exact decode_eq_encode.2 hencode
  · exact decode_eq_decode.2 hdecode
  · exact decode_eq_destroy.2 hdestroy
  · exact decode_error_of_no_row hcreate hencode hdecode hdestroy

namespace Machine

theorem issueCommand_of_reserved {run : Execution} {c : CommandWord} {r : Reserved} (hd : decode c = .error r)
    (s : State) : issueCommand run c s = .next (raiseError .illegal s) := by
  simp only [issueCommand, hd]

/-- Settles O7: the idle step issues the word, which is reserved. -/
theorem reservedWordReportsIllegal : Obligations.ReservedWordReportsIllegal := by
  intro s c rest hidle hmoves hcreate hencode hdecode hdestroy
  obtain ⟨r, hd⟩ := decode_error_of_no_row hcreate hencode hdecode hdestroy
  calc step s
    _ = issueCommand exec c { s with hostMoves := rest } := step_of_idle hidle hmoves
    _ = .next (raiseError .illegal { s with hostMoves := rest }) := issueCommand_of_reserved hd _
    _ = .next { s with hostMoves := rest, status := 4 } := rfl

end Machine

end Sys2Proof

/-! PROOFS, family 40_carrier_generator.md: the carrier frequency of rule R120, and the half-turn of the carrier tables
over ℝ (rule R124). -/

namespace Sys2Proof.Machine

/-! ### The carrier frequency -/

/-- Setting the low bit keeps an odd number and raises an even one by 1. -/
theorem lor_one_eq_ite (n : Nat) : n ||| 1 = if n % 2 = 1 then n else n + 1 := by
  have hdiv : (n ||| 1) / 2 = n / 2 := Nat.or_div_two.trans (Nat.or_zero _)
  have hmod : (n ||| 1) % 2 = 1 := Nat.or_mod_two_eq_one.2 (.inr rfl)
  split <;> omega

/-- The two cases of rule R120: an odd quotient is unchanged, an even one goes up by 1. -/
theorem carrierFreq_eq_ite (w : Nat) :
    carrierFreq w = if (50 * w / 73) % 2 = 1 then 50 * w / 73 else 50 * w / 73 + 1 := lor_one_eq_ite _

theorem carrierFreq_odd (w : Nat) : Odd (carrierFreq w) := by
  rw [carrierFreq_eq_ite, Nat.odd_iff]
  split <;> omega

theorem carrierFreq_bounds (w : Nat) : 50 * w / 73 ≤ carrierFreq w ∧ carrierFreq w ≤ 50 * w / 73 + 1 := by
  rw [carrierFreq_eq_ite]
  split <;> omega

/-- `1.46 = 73/50` exactly, so the floor of rule R120 is an integer division. -/
theorem floor_div_carrierRatio (w : Nat) : ⌊(w : ℚ) / (146 / 100)⌋.toNat = 50 * w / 73 := by
  have hratio : (w : ℚ) / (146 / 100) = (50 * w : Nat) / (73 : Nat) := by push_cast; ring
  rw [hratio, Rat.floor_natCast_div_natCast, ← Int.natCast_ediv, Int.toNat_natCast]

/-- Settles O20: the floor is the integer quotient, and the low bit is set in it. -/
theorem carrierFrequencyIsFloorWithLowBitSet : Obligations.CarrierFrequencyIsFloorWithLowBitSet := by
  intro w
  obtain ⟨hlow, hhigh⟩ := carrierFreq_bounds w
  exact ⟨by rw [floor_div_carrierRatio, carrierFreq], rfl, Nat.odd_iff.1 (carrierFreq_odd w), hlow, hhigh⟩

/-! ### The half-turn of the carrier over ℝ -/

theorem carrierAngle_real (w i : Nat) : carrierAngle realFormat w i = carrierFreq w * i / w * Real.pi := by
  simp only [carrierAngle, numOfNat, realFormat, pow_zero, div_one, Nat.cast_mul, Int.cast_mul,
    Int.cast_natCast]

/-- `w` elements on, the angle has advanced by `f` half-turns. -/
theorem carrierAngle_add_width {w : Nat} (hw : w ≠ 0) (i : Nat) :
    carrierAngle realFormat w (w + i) = carrierAngle realFormat w i + carrierFreq w * Real.pi := by
  have hw' : (w : ℝ) ≠ 0 := Nat.cast_ne_zero.2 hw
  rw [carrierAngle_real, carrierAngle_real, Nat.cast_add]
  field_simp
  ring

theorem sin_carrierAngle_add_width {w : Nat} (hw : w ≠ 0) (i : Nat) :
    realFormat.sin (carrierAngle realFormat w (w + i)) = -realFormat.sin (carrierAngle realFormat w i) := by
  rw [carrierAngle_add_width hw]
  exact (Real.sin_add_nat_mul_pi _ _).trans (by rw [(carrierFreq_odd w).neg_one_pow, neg_one_mul]; rfl)

theorem cos_carrierAngle_add_width {w : Nat} (hw : w ≠ 0) (i : Nat) :
    realFormat.cos (carrierAngle realFormat w (w + i)) = -realFormat.cos (carrierAngle realFormat w i) := by
  rw [carrierAngle_add_width hw]
  exact (Real.cos_add_nat_mul_pi _ _).trans (by rw [(carrierFreq_odd w).neg_one_pow, neg_one_mul]; rfl)

/-! ### Tables whose second half negates the first -/

section
variable {w : Nat} {f : Nat → ℝ}

theorem bufGet_bufTabulate_half_neg (hneg : ∀ j, f (w + j) = -f j) {j : Nat} (hj : j < w) :
    ∃ a, bufGet (bufTabulate (2 * w) f) j = some a ∧ bufGet (bufTabulate (2 * w) f) (w + j) = some (-a) :=
  ⟨f j, by rw [bufGet_bufTabulate, if_pos (by omega)], by rw [bufGet_bufTabulate, if_pos (by omega), hneg]⟩

theorem cgenWindow_bufTabulate_half_neg (name : BufferName) (hneg : ∀ j, f (w + j) = -f j) :
    ∃ l, cgenWindow name (bufTabulate (2 * w) f) 0 w = .ok l ∧
      cgenWindow name (bufTabulate (2 * w) f) 1 w = .ok (l.map fun v => -v) := by
  have hget : ∀ i, i < 2 * w → bufGet (bufTabulate (2 * w) f) i = some (f i) := fun i hi => by
    rw [bufGet_bufTabulate, if_pos hi]
  refine ⟨_, cgenWindow_of_get hget, ?_⟩
  rw [cgenWindow_of_get hget, List.map_map]
  congr 1
  refine List.map_congr_left fun j _ => ?_
  simp [hneg]

end

/-- Settles O22: over `w` elements each table turns by an odd number of half-turns. -/
theorem secondHalfIsTheNegatedFirstHalf : Obligations.SecondHalfIsTheNegatedFirstHalf := by
  intro w h3
  have hw : w ≠ 0 := by omega
  have hsin := sin_carrierAngle_add_width hw
  have hcos := cos_carrierAngle_add_width hw
  obtain ⟨sw, hs0, hs1⟩ :=
    cgenWindow_bufTabulate_half_neg (f := fun i => realFormat.sin (carrierAngle realFormat w i)) .sin hsin
  obtain ⟨cw, hc0, hc1⟩ :=
    cgenWindow_bufTabulate_half_neg (f := fun i => realFormat.cos (carrierAngle realFormat w i)) .cos hcos
  exact ⟨fun j hj => ⟨bufGet_bufTabulate_half_neg hsin hj, bufGet_bufTabulate_half_neg hcos hj⟩,
    sw, cw, hs0, hs1, hc0, hc1⟩

end Sys2Proof.Machine

/-! PROOFS, family 41_biquad_filter.md: the filter that BQ.INIT writes (rule R141), and the independence of a filter's run
from the batching of its inputs (rule R147). -/

namespace Sys2Proof.Machine

/-! ### BQ.INIT -/

theorem bqPrewarp_real (fc : ℝ) : bqPrewarp realFormat fc = Real.tan (Real.pi * fc) := rfl

/-- A cutoff between 0 and 0.5 puts the angle `π * fc` in the open first quadrant. -/
theorem bqPrewarp_real_pos {fc : ℝ} (h0 : 0 < fc) (hhalf : fc < 0.5) : 0 < bqPrewarp realFormat fc := by
  have hfirst : Real.pi * fc < Real.pi / 2 :=
    calc Real.pi * fc
      _ < Real.pi * 0.5 := mul_lt_mul_of_pos_left hhalf Real.pi_pos
      _ = Real.pi / 2 := by ring
  rw [bqPrewarp_real]
  exact Real.tan_pos_of_pos_of_lt_pi_div_two (mul_pos Real.pi_pos h0) hfirst

/-- The divisor of `norm` in rule R141, with the quality factor 0.7. -/
theorem one_lt_bqDenominator {k : ℝ} (hk : 0 < k) : 1 < 1 + k / 0.7 + k * k := by
  have hlinear : 0 < k / 0.7 := div_pos hk (by norm_num)
  have hsquare : 0 < k * k := mul_pos hk hk
  linarith

/-- Settles O17: the prewarped cutoff is positive, so both terms added to 1 are; the registers are those of the pseudocode
by definition. -/
theorem filterInitialisation : Obligations.FilterInitialisation := by
  refine ⟨fun fc h0 hhalf => ?_, fun N fc => rfl⟩
  have hk := bqPrewarp_real_pos h0 hhalf
  exact ⟨hk, one_lt_bqDenominator hk⟩

/-! ### Batches of inputs -/

/-- A run over batches is the run over their concatenation: each batch starts from the filter the one before it left. -/
theorem bqRunBatches_eq_bqRun_flatten {α : Type} (N : NumFormat α) (F : Biquad α) (batches : List (List α)) :
    bqRunBatches N F batches = bqRun N F batches.flatten := by
  induction batches generalizing F with
  | nil => rfl
  | cons xs batches ih => rw [bqRunBatches, ih, List.flatten_cons, bqRun_append]

/-- Settles O25: both runs are the run over the one input sequence. -/
theorem filterBatchingIsInvisible : Obligations.FilterBatchingIsInvisible := by
  intro α N F b₁ b₂ hinputs
  rw [bqRunBatches_eq_bqRun_flatten, bqRunBatches_eq_bqRun_flatten, hinputs]

end Sys2Proof.Machine

/-! PROOFS, family 42_color_transform.md: the three transforms over ℝ as linear maps (rules R160 to R162), gray pixels, and
the round trip through chroma and luma (rule R164). -/

namespace Sys2Proof.Machine

section
variable (r g b i q y v : ℝ)

/-! ### The three maps -/

/-- Rule R160. -/
theorem ctLuma_real : ctLuma realFormat (r, g, b) = 0.30 * r + 0.59 * g + 0.11 * b := by
  norm_num [ctLuma, realFormat]

/-- Rule R161. -/
theorem ctChroma_real :
    ctChroma realFormat (r, g, b) = (0.6 * r - 0.28 * g - 0.32 * b, 0.21 * r - 0.52 * g + 0.31 * b) := by
  norm_num [ctChroma, realFormat]

/-- Rule R162. -/
theorem ctToRgb_real : ctToRgb realFormat (i, q) y =
    (0.96 * i + 0.62 * q + y, -0.27 * i - 0.65 * q + y, -1.11 * i + 1.70 * q + y) := by
  norm_num [ctToRgb, realFormat]

/-! ### Gray pixels and the round trip -/

/-- The weights of the luma add up to 1. -/
theorem ctLuma_real_gray : ctLuma realFormat (v, v, v) = v := by
  rw [ctLuma_real]
  ring

/-- The weights of each chroma component add up to 0. -/
theorem ctChroma_real_gray : ctChroma realFormat (v, v, v) = (0, 0) := by
  rw [ctChroma_real, Prod.mk.injEq]
  constructor <;> ring

theorem ctToRgb_real_zero : ctToRgb realFormat (0, 0) y = (y, y, y) := by
  simp [ctToRgb_real]

/-- The round trip is the product of the two matrices: near the identity, but not the identity (rule R164). -/
theorem ctToRgb_ctChroma_ctLuma_real :
    ctToRgb realFormat (ctChroma realFormat (r, g, b)) (ctLuma realFormat (r, g, b)) =
      (1.0062 * r - 0.0012 * g - 0.005 * b, 0.0015 * r + 1.0036 * g - 0.0051 * b,
        -0.009 * r + 0.0168 * g + 0.9922 * b) := by
  rw [ctChroma_real, ctLuma_real, ctToRgb_real, Prod.mk.injEq, Prod.mk.injEq]
  refine ⟨?_, ?_, ?_⟩ <;> ring

end

/-- Settles O28: each transform is its linear map; the luma and chroma weights settle the gray pixel, and the round trips
are values of the product matrix. -/
theorem colourTransformsAreTheLinearMaps : Obligations.ColourTransformsAreTheLinearMaps := by
  refine ⟨fun r g b i q y v => ⟨ctLuma_real r g b, ctChroma_real r g b, ctToRgb_real i q y, ctLuma_real_gray v,
    ctChroma_real_gray v, ?_⟩, ?_⟩
  · rw [ctChroma_real_gray, ctLuma_real_gray, ctToRgb_real_zero]
  · simp only [ctToRgb_ctChroma_ctLuma_real]
    norm_num

end Sys2Proof.Machine

/-! PROOFS, family 44_demodulator.md: the histories that a completed DECODE leaves (rule R207). -/

namespace Sys2Proof.Machine

/-- Rule R207, from state `s` to state `t`: both histories of `t` hold the raw input line of `s`, every element of which
holds a value. -/
def HistoriesHoldInput (s t : State) : Prop :=
  ∀ i, i < lineWidth s →
    (bufGet s.lineIn i).isSome ∧ bufGet t.pl i = bufGet s.lineIn i ∧ bufGet t.pc i = bufGet s.lineIn i

theorem readSamples_isSome {P : Params Number} {s : State} {x : List Number} (hx : readSamples P s = .ok x) {i : Nat}
    (hi : i < lineWidth s) : (bufGet s.lineIn i).isSome := by
  have hlen := readSamples_length hx
  rw [(readSamples_get hx hi).2, List.getElem?_eq_getElem (by omega), Option.isSome_some]

/-- A buffer that takes the samples of the input line from element 0 on holds the input line. -/
theorem bufGet_bufPutAll_readSamples {P : Params Number} {s : State} {x : List Number} (hx : readSamples P s = .ok x)
    (b : Buffer Number) {i : Nat} (hi : i < lineWidth s) : bufGet (bufPutAll b 0 x) i = bufGet s.lineIn i := by
  have hlen := readSamples_length hx
  rw [bufGet_bufPutAll, if_pos (by omega), Nat.sub_zero, (readSamples_get hx hi).2]

/-- The separated lines play no part: the end of a DECODE reads the input line again and writes that. -/
theorem decodeFinish_histories {P : Params Number} {s t : State} {ls xs : List Number}
    (h : decodeFinish P s ls xs = .ok t) : HistoriesHoldInput s t := by
  obtain ⟨sw, cw, x, -, hx, -, -, -, rfl⟩ := decodeFinish_eq_ok h
  exact fun i hi =>
    ⟨readSamples_isSome hx hi, bufGet_bufPutAll_readSamples hx s.pl hi, bufGet_bufPutAll_readSamples hx s.pc hi⟩

/-- A DECODE that does not wait any more is past the canceller, which leaves the input line and the width as they were. -/
theorem decodeAfterCancel_histories {P : Params Number} {s t : State} {xs : List Number} {r : CancelResult Number}
    (h : decodeAfterCancel P s xs r = .ok t) (hidle : t.waiting = none) : HistoriesHoldInput s t := by
  rcases decodeAfterCancel_eq_ok h with ⟨ls, answers, sent, -, hfinish⟩ | ⟨b, ls, sent, -, rfl⟩
  · -- Stated before it meets the goal, which speaks of `s` where this speaks of `s` with the estimator's moves made.
    have hhistories := decodeFinish_histories hfinish
    exact hhistories
  · cases hidle

theorem decodeContext_histories {P : Params Number} {s t : State} (h : decodeContext P s = .ok t)
    (hidle : t.waiting = none) : HistoriesHoldInput s t := by
  obtain ⟨x, pc, -, -, ⟨-, pl, -, hplain⟩ | ⟨-, hharmonic⟩⟩ := decodeContext_eq_ok h
  · exact decodeFinish_histories hplain
  · exact decodeAfterCancel_histories hharmonic hidle

theorem decodeResume_histories {P : Params Number} {s t : State} {d : Waiting} {answer : List (Estimate Number)}
    {answers : List (List (Estimate Number))} (h : decodeResume P s d answer answers = .ok t)
    (hidle : t.waiting = none) : HistoriesHoldInput s t := decodeAfterCancel_histories h hidle

/-- What a step of a waiting engine did when a live context remains: not a reset, so the estimator's answer resumed DECODE. -/
theorem step_of_waiting_live {P : Params Number} {s t : State} (hwait : s.waiting.isSome)
    (h : engineStep P s = .next t) (hlive : t.ctxValid = 1) :
    ∃ d a rest, s.waiting = some d ∧ s.estAnswers = a :: rest ∧ decodeResume P s d a rest = .ok t := by
  rcases step_eq_next h with ⟨hnone, -⟩ | ⟨_, _, hnone, -⟩ | ⟨_, _, -, -, rfl⟩ | ⟨d, a, rest, hd, ha, -, -, hresume⟩
  · simp [hnone] at hwait
  · simp [hnone] at hwait
  · cases hlive
  · exact ⟨d, a, rest, hd, ha, hresume⟩

/-- Settles O37: in both modes, at once or resumed, a DECODE that waits no more went through its end, which writes the raw
input line to both histories. -/
theorem historyIsTheRawInputLine : Obligations.HistoryIsTheRawInputLine := by
  intro P s t hlive hlive' hidle hrun
  change HistoriesHoldInput s t
  rcases hrun with hdecode | ⟨hwait, hstep⟩
  · have hcontext := (requireFinite_eq_next.1 ((decodeWith_context P hlive).symm.trans hdecode)).2
    exact decodeContext_histories hcontext hidle
  · obtain ⟨d, a, rest, -, -, hresume⟩ := step_of_waiting_live hwait hstep hlive'
    exact decodeResume_histories hresume hidle

end Sys2Proof.Machine

/-! PROOFS, family 60_exceptions.md: the `ContractViolation` of rule R292. -/

namespace Sys2Proof.Machine

/-- The error's code is the only thing `raise ContractViolation` writes. -/
theorem raiseError_contract (s : State) : raiseError .contract s = { s with status := 3 } := rfl

/-- Settles O13: ENCODE, DECODE and DESTROY test `CTX_VALID` first, and so does CREATE; each then answers the raised
error. -/
theorem contractViolationChangesOnlyStatus : Obligations.ContractViolationChangesOnlyStatus := by
  intro s width h
  simp only [exec_eq, ← raiseError_contract]
  constructor
  · intro hnone
    exact ⟨encodeWith_no_context Config.params hnone, decodeWith_no_context Config.params hnone,
      execDestroy_no_context hnone⟩
  · intro hlive
    exact createWith_context Config.params width h hlive

end Sys2Proof.Machine

/-! PROOFS, family 70_reset_and_hazards.md: what rule R330 says of the machine after reset. -/

namespace Sys2Proof.Machine

@[simp] theorem reset_ctxValid : State.reset.ctxValid = 0 := rfl
@[simp] theorem reset_status : State.reset.status = 0 := rfl
@[simp] theorem reset_waiting : State.reset.waiting = none := rfl

/-- Settles O12: rule R330 fixes three registers of the reset state, each read by its own lemma. The values of the others
are the model's (log 5), and no lemma here speaks of them. -/
theorem resetLeavesNoContext : Obligations.ResetLeavesNoContext :=
  ⟨reset_ctxValid, reset_status, reset_waiting⟩

end Sys2Proof.Machine

/-! PROOFS, family 30_encoding.md, continued: the decoder and the encoder are inverse to each other, and the words of the
encoding tables. -/

namespace Sys2Proof

/-- Settles O1: CREATE by the fields of its word, the three format Z commands by their one word. -/
theorem decodeOfEncodeIsTheCommand : Obligations.DecodeOfEncodeIsTheCommand := by
  intro i hi
  cases i with
  | create width h =>
    have hwidth : width < 2 ^ 24 := of_decide_eq_true hi
    have hbit : h.toNat < 2 := h.isLt
    have hword := encode_create_toNat width h
    refine decode_eq_create.2 ⟨by omega, by omega, ?_⟩
    rw [← BitVec.toNat_inj, hField_toNat]
    omega
  | encode => exact decode_eq_encode.2 rfl
  | decode => exact decode_eq_decode.2 rfl
  | destroy => exact decode_eq_destroy.2 rfl

/-- The word of the CREATE that a word decodes to is that word: its seven top bits are fixed and the rest are operands. -/
theorem encode_of_decode_create {c : CommandWord} {width : Nat} {h : BitVec 1} (hd : decode c = .ok (.create width h)) :
    encode (.create width h) = c := by
  obtain ⟨hop, rfl, rfl⟩ := decode_eq_create.1 hd
  rw [← BitVec.toNat_inj, encode_create_toNat, hField_toNat]
  omega

/-- Settles O2, by the command the word decodes to. -/
theorem acceptedWordIsTheEncoding : Obligations.AcceptedWordIsTheEncoding := by
  intro c i hd
  cases i with
  | create width h =>
    have hwidth : width = c.toNat % 2 ^ 24 := (decode_eq_create.1 hd).2.1
    exact ⟨decide_eq_true (show width < 2 ^ 24 by omega), encode_of_decode_create hd⟩
  | encode => exact ⟨rfl, (decode_eq_encode.1 hd).symm⟩
  | decode => exact ⟨rfl, (decode_eq_decode.1 hd).symm⟩
  | destroy => exact ⟨rfl, (decode_eq_destroy.1 hd).symm⟩

/-- Settles O4: the nine words are closed, so the decoder evaluates on each. -/
theorem writtenWordsDecode : Obligations.WrittenWordsDecode := by
  unfold Obligations.WrittenWordsDecode
  decide

end Sys2Proof

/-! PROOFS, the step: the decoded command, the open parameters and the moves of the host and the estimator
(70_reset_and_hazards.md rule R345). -/

namespace Sys2Proof.Machine

theorem issueCommand_of_decode {run : Execution} {c : CommandWord} {i : Instr} (hd : decode c = .ok i) (s : State) :
    issueCommand run c s = run i s := by
  simp only [issueCommand, hd]

theorem step_of_command {s : State} {c : CommandWord} {i : Instr} {rest : List HostMove} (hidle : s.waiting = none)
    (hmoves : s.hostMoves = .command c :: rest) (hd : decode c = .ok i) :
    step s = exec i { s with hostMoves := rest } :=
  (step_of_idle hidle hmoves).trans (issueCommand_of_decode hd _)

/-- A word of 32 bits is its own number below `2^32`. -/
theorem withFetchWord_toNat (s : State) (c : CommandWord) : s.withFetchWord 32 c.toNat = withCommand s c := by
  rw [State.withFetchWord, Nat.mod_eq_of_lt c.isLt, BitVec.ofNat_toNat, BitVec.setWidth_eq]

/-- Settles O5: the idle step issues the word; the encoding of a well-formed command is a word that decodes to it. -/
theorem stepRunsTheDecodedCommand : Obligations.StepRunsTheDecodedCommand := by
  refine ⟨fun s c i rest hidle hmoves hd => step_of_command hidle hmoves hd, fun s i hi => ?_⟩
  rw [withFetchWord_toNat]
  exact step_of_command rfl rfl (decodeOfEncodeIsTheCommand i hi)

/-- Settles O6: `exec` and `step` are defined by the commands at `Config.params`. -/
theorem stepTakesTheOpenParameters : Obligations.StepTakesTheOpenParameters := ⟨exec_eq, step_eq⟩

/-- An access to `LINE_IN` or `LINE_OUT` beyond `3·WIDTH_MAX` is no move of the host. -/
theorem hostWriteLineIn_beyond {P : Params Number} {k : Nat} (hk : lineCapacity P ≤ k) (v : Number) (s : State) :
    hostWriteLineIn P k v s = .refused (.noSuchLineElement k) := if_neg (by omega)

theorem hostReadLineOut_beyond {P : Params Number} {k : Nat} (hk : lineCapacity P ≤ k) (s : State) :
    hostReadLineOut P k s = .refused (.noSuchLineElement k) := if_neg (by omega)

theorem hostWriteLineIn_inside {P : Params Number} {k : Nat} (hk : k < lineCapacity P) (v : Number) (s : State) :
    hostWriteLineIn P k v s = .next { s with lineIn := bufPut s.lineIn k v } := if_pos hk

theorem hostReadLineOut_inside {P : Params Number} {k : Nat} (hk : k < lineCapacity P) (s : State) :
    hostReadLineOut P k s = .next { s with hostReads := .lineOut k (lineOutValue s k) :: s.hostReads } := if_pos hk

theorem hostReadLineOut_written {P : Params Number} {k : Nat} (hk : k < lineCapacity P) {v : Number} {s : State}
    (hv : bufGet s.lineOut k = some v) :
    hostReadLineOut P k s = .next { s with hostReads := .lineOut k v :: s.hostReads } := by
  rw [hostReadLineOut_inside hk, lineOutValue, hv, Option.getD_some]

/-- Settles O8: the idle step makes the host's move, each clause by what that move does. -/
theorem hostMovesOnTheIdleEngine : Obligations.HostMovesOnTheIdleEngine := by
  intro s rest k v hidle
  refine ⟨fun hmoves hk => ?_, fun hmoves hk hv => ?_, fun hmoves => ?_, ?_⟩
  · exact ⟨_, (step_of_idle hidle hmoves).trans (hostWriteLineIn_inside hk v _), rfl,
      fun i => bufGet_bufPut s.lineIn k i v⟩
  · exact (step_of_idle hidle hmoves).trans (hostReadLineOut_written hk hv)
  · exact step_of_idle hidle hmoves
  · rintro (hmoves | hmoves) hk
    · exact (step_of_idle hidle hmoves).trans (hostWriteLineIn_beyond hk v _)
    · exact (step_of_idle hidle hmoves).trans (hostReadLineOut_beyond hk _)

theorem step_of_readLineOut {s : State} {k : Nat} {rest : List HostMove} (hidle : s.waiting = none)
    (hmoves : s.hostMoves = .readLineOut k :: rest) (hk : k < 3 * Config.params.widthMax) :
    step s = .next { s with hostMoves := rest, hostReads := .lineOut k (lineOutValue s k) :: s.hostReads } :=
  (step_of_idle hidle hmoves).trans (hostReadLineOut_inside hk _)

/-- Settles O9: a read records what the element reads as and leaves what that depends on, so the second read records the
same. -/
theorem lineOutReadIsIdempotent : Obligations.LineOutReadIsIdempotent := by
  intro s k rest hidle hk hmoves
  refine ⟨_, lineOutValue s k, step_of_readLineOut hidle hmoves hk, ?_⟩
  exact step_of_readLineOut hidle rfl hk

/-! ### The control registers (10_state.md rule R38) -/

theorem hostReadControl_of_value {n : Nat} {s : State} {v : BitVec 32} (h : controlValue n s = some v) :
    hostReadControl n s = .next { s with hostReads := .control n v :: s.hostReads, freeCount := s.freeCount + 1 } := by
  simp only [hostReadControl, h]

theorem hostReadControl_beyond {n : Nat} (hn : 5 ≤ n) (s : State) :
    hostReadControl n s = .refused (.noSuchControlRegister n) := by
  obtain ⟨k, rfl⟩ := Nat.exists_eq_add_of_le' hn
  rfl

/-- A register of at most 32 bits reads as its own number. -/
theorem toNat_setWidth_word {n : Nat} (hn : n ≤ 32) (x : BitVec n) : (x.setWidth 32).toNat = x.toNat :=
  BitVec.toNat_setWidth_of_le hn

/-- What register `n` reads as: the register where it is specified, and a value that fits it where it is not. -/
theorem controlValue_eq_some {n : Nat} (hn : n < 5) (s : State) :
    ∃ v, controlValue n s = some v ∧
      (n = 0 → v.toNat = s.status.toNat) ∧ (n = 1 → v.toNat = s.ctxValid.toNat) ∧
      (s.ctxValid = 1 → (n = 2 → v.toNat = s.width.toNat) ∧ (n = 3 → v.toNat = s.hmode.toNat) ∧
        (n = 4 → v.toNat = s.phase.toNat)) ∧
      (n = 2 → v.toNat < 2 ^ 16) ∧ (n = 3 ∨ n = 4 → v.toNat < 2) := by
  have hlive : s.ctxValid = 1 → ¬ s.ctxValid = 0 := fun h => by rw [h]; decide
  -- One bullet per register, 0 to 4.
  interval_cases n
  · exact ⟨_, rfl, fun _ => toNat_setWidth_word (by decide) _, by simp, by simp, by simp, by simp⟩
  · exact ⟨_, rfl, by simp, fun _ => toNat_setWidth_word (by decide) _, by simp, by simp, by simp⟩
  · refine ⟨_, rfl, by simp, by simp, fun hv => ⟨fun _ => ?_, by simp, by simp⟩, fun _ => ?_, by simp⟩
    · rw [toNat_setWidth_word (by decide), if_neg (hlive hv)]
    · exact (toNat_setWidth_word (by decide) _).trans_lt (BitVec.isLt _)
  · refine ⟨_, rfl, by simp, by simp, fun hv => ⟨by simp, fun _ => ?_, by simp⟩, by simp, fun _ => ?_⟩
    · rw [toNat_setWidth_word (by decide), if_neg (hlive hv)]
    · exact (toNat_setWidth_word (by decide) _).trans_lt (BitVec.isLt _)
  · refine ⟨_, rfl, by simp, by simp, fun hv => ⟨by simp, by simp, fun _ => ?_⟩, by simp, fun _ => ?_⟩
    · rw [toNat_setWidth_word (by decide), if_neg (hlive hv)]
    · exact (toNat_setWidth_word (by decide) _).trans_lt (BitVec.isLt _)

/-- Settles O10: the idle step reads the register; the value is that of the map. -/
theorem controlRegisterMap : Obligations.ControlRegisterMap := by
  intro s n rest hidle hmoves
  refine ⟨fun hn => ?_, fun hn => ?_⟩
  · obtain ⟨v, hv, hmap⟩ := controlValue_eq_some hn { s with hostMoves := rest }
    exact ⟨v, (step_of_idle hidle hmoves).trans (hostReadControl_of_value hv), hmap⟩
  · exact (step_of_idle hidle hmoves).trans (hostReadControl_beyond hn _)

/-- Settles O11: a waiting engine takes a pending reset first, then an answer, and has no other step. -/
theorem unansweredQueryIsStuckButForReset : Obligations.UnansweredQueryIsStuckButForReset := by
  intro s d hwait
  refine ⟨fun hsilent hnoReset => step_of_waiting_silence hwait hnoReset hsilent, fun rest hmoves => ?_⟩
  exact ⟨_, step_of_waiting_reset hwait hmoves, rfl, rfl, rfl, rfl⟩

end Sys2Proof.Machine

/-! PROOFS, the invariant of the machine: it holds after reset and every step keeps it. One lemma per kind of change a step
can make. -/

namespace Sys2Proof.Machine

/-! ### Parts of the invariant -/

theorem numbersFinite_nil {α : Type} (N : NumFormat α) : numbersFinite N [] := fun _ hv => absurd hv List.not_mem_nil

theorem values_bufPutAll {α : Type} {q : Nat × α → Prop} {b : Buffer α} (hb : ∀ p ∈ b, q p) {start : Nat} {vs : List α}
    (hvs : ∀ v ∈ vs, ∀ i, q (i, v)) : ∀ p ∈ bufPutAll b start vs, q p := by
  induction vs generalizing b start with
  | nil => exact hb
  | cons v vs ih =>
    refine ih (fun p hp => ?_) fun u hu => hvs u (List.mem_cons_of_mem v hu)
    rcases mem_bufPut hp with rfl | hp
    · exact hvs v List.mem_cons_self start
    · exact hb p hp

theorem numbersFinite_bufPutAll {α : Type} {N : NumFormat α} {b : Buffer α} (hb : numbersFinite N (b.map Prod.snd))
    {start : Nat} {vs : List α} (hvs : numbersFinite N vs) : numbersFinite N ((bufPutAll b start vs).map Prod.snd) := by
  have hall : ∀ p ∈ bufPutAll b start vs, N.finite p.2 = true :=
    values_bufPutAll (fun p hp => hb p.2 (List.mem_map_of_mem hp)) fun v hv _ => hvs v hv
  intro v hv
  obtain ⟨p, hp, rfl⟩ := List.mem_map.1 hv
  exact hall p hp

/-- The elements of a whole line put from 0 on fill it. -/
theorem filledBelow_putLine {α : Type} (b : Buffer α) {n : Nat} {vs : List α} (hvs : vs.length = n) :
    filledBelow n (bufPutAll b 0 vs) := hvs ▸ filledBelow_bufPutAll b vs

theorem indicesBelow_putLine {α : Type} {n : Nat} {b : Buffer α} (hb : indicesBelow n b) {vs : List α}
    (hvs : vs.length ≤ n) : indicesBelow n (bufPutAll b 0 vs) := indicesBelow_bufPutAll hb 0 vs (by omega)

theorem numbersFinite_interleave {N : NumFormat Number} {l : List (Number × Number × Number)}
    (h : ∀ p ∈ l, numbersFinite N [p.1, p.2.1, p.2.2]) : numbersFinite N (interleave l) := by
  induction l with
  | nil => exact numbersFinite_nil N
  | cons p l ih =>
    obtain ⟨hp, hl⟩ := List.forall_mem_cons.1 h
    intro v hv
    rcases List.mem_append.1 (show v ∈ [p.1, p.2.1, p.2.2] ++ interleave l from hv) with hv | hv
    · exact hp v hv
    · exact ih hl v hv

theorem sameCoefficients_filterLine {F G : Biquad Number} (h : sameCoefficients F G) (N : NumFormat Number)
    (xs : List Number) : sameCoefficients (filterLine N F xs).2 G := by
  obtain ⟨h0, h1, h2, h3, h4⟩ := h
  obtain ⟨e0, e1, e2, e3, e4⟩ := filterLine_coefficients N F xs
  exact ⟨e0.trans h0, e1.trans h1, e2.trans h2, e3.trans h3, e4.trans h4⟩

theorem eq_one_of_ne_zero {p : BitVec 1} (h : p ≠ 0) : p = 1 := by
  have hp := phase_le_one p
  have h0 : p.toNat ≠ 0 := fun h' => h (BitVec.eq_of_toNat_eq h')
  exact BitVec.eq_of_toNat_eq (show p.toNat = 1 by omega)

theorem lineWidth_le_capacity {P : Params Number} {s : State} (h : lineWidth s ≤ P.widthMax) :
    3 * lineWidth s ≤ lineCapacity P := Nat.mul_le_mul_left 3 h

/-! ### What keeps the invariant -/

theorem inv_reset (P : Params Number) : Inv P State.reset where
  memory := reset_memory_wf
  lineIn_bound p hp := by cases hp
  lineOut_bound p hp := by cases hp
  lineOut_finite := numbersFinite_nil P.num
  status_code := Nat.zero_le 4
  context hv := absurd hv (show ¬ 0#1 = 1#1 by decide)
  no_context _ := ⟨rfl, rfl, rfl, rfl, rfl, rfl⟩

/-- Settles O45: with no context and no element written, every clause is empty or closed. -/
theorem resetMeetsTheInvariant : Obligations.ResetMeetsTheInvariant := inv_reset

variable {P : Params Number} {s t : State}

/-- The invariant says nothing of the agents' fields, the counters and the code in `STATUS` beyond its range. -/
theorem Inv.withAgents (h : Inv P s) {code : BitVec 8} (hcode : code.toNat ≤ 4) (moves : List HostMove)
    (reads : List HostRead) (answers : List (List (Estimate Number))) (queries : List (Query Number)) (n m : Nat) :
    Inv P { s with
      status := code, hostMoves := moves, hostReads := reads, estAnswers := answers, estQueries := queries
      freeCount := n, resetCount := m } :=
  { h with
    status_code := hcode
    context := fun hv => { h.context hv with }
    no_context := fun hv => { h.no_context hv with } }

theorem Inv.hardReset (P : Params Number) (s : State) : Inv P (hardReset s) :=
  (inv_reset P).withAgents (code := 0) (Nat.zero_le 4) s.hostMoves s.hostReads s.estAnswers s.estQueries s.freeCount _

theorem Inv.raiseError (h : Inv P s) (e : EngineError) : Inv P (raiseError e s) :=
  h.withAgents (errorCode_le_four e) s.hostMoves s.hostReads s.estAnswers s.estQueries s.freeCount s.resetCount

theorem Inv.idle_of_no_context (h : Inv P s) (hv : s.ctxValid = 0) : s.waiting = none := (h.no_context hv).idle

/-- A host write of `LINE_IN` on an idle engine. -/
theorem Inv.writeLineIn (h : Inv P s) (hidle : s.waiting = none) {k : Nat} (hk : k < lineCapacity P) (v : Number) :
    Inv P { s with lineIn := bufPut s.lineIn k v } :=
  have ⟨hsin, hcos, hcb, hpl, hpc, hin, hout⟩ := h.memory
  { h with
    memory := ⟨hsin, hcos, hcb, hpl, hpc, bufPut_wf hin k v, hout⟩
    lineIn_bound := indicesBelow_bufPut h.lineIn_bound hk v
    context := fun hv =>
      { h.context hv with waiting_harmonic := fun d hd => absurd (hidle.symm.trans hd) (by simp) }
    no_context := fun hv => { h.no_context hv with } }

theorem Inv.destroyContext (h : Inv P s) (hidle : s.waiting = none) : Inv P (destroyContext s) :=
  have ⟨_, _, _, _, _, hin, hout⟩ := h.memory
  { h with
    memory := ⟨.nil, .nil, .nil, .nil, .nil, hin, hout⟩
    status_code := Nat.zero_le 4
    context := fun hv => absurd hv (show ¬ 0#1 = 1#1 by decide)
    no_context := fun _ => ⟨rfl, rfl, rfl, rfl, rfl, hidle⟩ }

theorem lineWidth_createContext (P : Params Number) {width : Nat} (hm : width ≤ P.widthMax) (hmode : BitVec 1)
    (s : State) : lineWidth (createContext P width hmode s) = width := by
  have hmax := (widthMax_bounds P).2
  rw [lineWidth, createContext_width, BitVec.toNat_ofNat, Nat.mod_eq_of_lt (by omega)]

theorem Inv.createContext (h : Inv P s) (hv : s.ctxValid = 0) {width : Nat} (h3 : 3 ≤ width) (hm : width ≤ P.widthMax)
    (hf : createFinite P.num width = true) (hmode : BitVec 1) : Inv P (createContext P width hmode s) := by
  obtain ⟨-, -, hcb, -, -, hin, hout⟩ := h.memory
  have hnone := h.no_context hv
  have hw := lineWidth_createContext P hm hmode s
  obtain ⟨fsin, fcos, ffi, ffq⟩ := createFinite_eq_true hf
  refine { h with
    memory := ⟨bufTabulate_wf _ _, bufTabulate_wf _ _, hcb, bufTabulate_wf _ _, bufTabulate_wf _ _, hin, hout⟩
    status_code := Nat.zero_le 4
    context := fun _ => ?_
    no_context := fun hv' => absurd hv' (show ¬ 1#1 = 0#1 by decide) }
  exact
    { width_low := hw.symm ▸ h3
      width_high := hw.symm ▸ hm
      sin_table := by rw [hw]; rfl
      cos_table := by rw [hw]; rfl
      fi_coefficients := ⟨rfl, rfl, rfl, rfl, rfl⟩
      fq_coefficients := ⟨rfl, rfl, rfl, rfl, rfl⟩
      cb_bound := by rw [createContext_cb, hnone.cb_empty]; exact fun p hp => absurd hp List.not_mem_nil
      pl_bound := by rw [hw]; exact indicesBelow_bufTabulate _ _
      pc_bound := by rw [hw]; exact indicesBelow_bufTabulate _ _
      pl_filled := by rw [hw]; exact filledBelow_bufTabulate _ _
      pc_filled := by rw [hw]; exact filledBelow_bufTabulate _ _
      sin_finite := fsin
      cos_finite := fcos
      fi_finite := ffi
      fq_finite := ffq
      cb_finite := by rw [createContext_cb, hnone.cb_empty]; exact fun p hp => absurd hp List.not_mem_nil
      waiting_harmonic := fun d hd => absurd (hnone.idle.symm.trans hd) (by simp) }

theorem Inv.encodeContext (h : Inv P s) (hv : s.ctxValid = 1) (hidle : s.waiting = none)
    (hf : encodeFinite P s = true) (he : encodeContext P s = .ok t) : Inv P t := by
  obtain ⟨sw, cw, pixels, hwin, hpix, h3, -, rfl⟩ := encodeContext_eq_ok he
  obtain ⟨hsw, hcw⟩ := readWindows_eq_ok.1 hwin
  have hc := h.context hv
  obtain ⟨hsin, hcos, hcb, hpl, hpc, hin, hout⟩ := h.memory
  rw [encodeFinite, hwin, hpix] at hf
  obtain ⟨fcb, ffi, ffq, fout⟩ := encodeLine_finite P.num s.fi s.fq sw cw pixels hf
  have hlen := encodeLine_out_length P.num s.fi s.fq h3 (cgenWindow_length hsw) (cgenWindow_length hcw)
    (readPixels_length hpix)
  have hcap := lineWidth_le_capacity hc.width_high
  have hchroma := encodeLine_chroma_length P.num s.fi s.fq sw cw pixels
  have hpixels := readPixels_length hpix
  refine { h with
    memory := ⟨hsin, hcos, bufPutAll_wf hcb 0 _, hpl, hpc, hin, bufPutAll_wf hout 0 _⟩
    lineOut_bound := indicesBelow_putLine h.lineOut_bound (by omega)
    lineOut_finite := numbersFinite_bufPutAll h.lineOut_finite fout
    status_code := Nat.zero_le 4
    context := fun _ => ?_
    no_context := fun hv' => absurd (hv.symm.trans hv') (by decide) }
  exact { hc with
    fi_coefficients := sameCoefficients_filterLine hc.fi_coefficients _ _
    fq_coefficients := sameCoefficients_filterLine hc.fq_coefficients _ _
    cb_bound := indicesBelow_putLine hc.cb_bound (hchroma.trans hpixels).le
    fi_finite := ffi
    fq_finite := ffq
    cb_finite := values_bufPutAll hc.cb_finite fun c hm _ => fcb c hm
    waiting_harmonic := fun d hd => absurd (hidle.symm.trans hd) (by simp) }

/-- The end of a DECODE whose lines are whole and finite. -/
theorem Inv.decodedState (h : Inv P s) (hv : s.ctxValid = 1) (hidle : s.waiting = none) {sw cw ls xs x : List Number}
    (hwin : readWindows s = .ok (sw, cw)) (hx : readSamples P s = .ok x) (hls : ls.length = lineWidth s)
    (hxs : xs.length = lineWidth s) (hf : FiniteLine P.num (decodeLine P.num s.fi s.fq sw cw ls xs)) :
    Inv P (decodedState P s sw cw ls xs x) := by
  obtain ⟨hsw, hcw⟩ := readWindows_eq_ok.1 hwin
  have hc := h.context hv
  obtain ⟨hsin, hcos, hcb, hpl, hpc, hin, hout⟩ := h.memory
  have h3 := hc.width_low
  have hchroma := decodeLine_chroma_length P.num s.fi s.fq (ls := ls) h3 (cgenWindow_length hsw) (cgenWindow_length hcw) hxs
  have hpixels := decodeLine_pixels_length P.num s.fi s.fq h3 (cgenWindow_length hsw) (cgenWindow_length hcw) hls hxs
  have hlen := readSamples_length hx
  have hcap := lineWidth_le_capacity hc.width_high
  refine { h with
    memory := ⟨hsin, hcos, bufPutAll_wf hcb 0 _, bufPutAll_wf hpl 0 _, bufPutAll_wf hpc 0 _, hin, bufPutAll_wf hout 0 _⟩
    lineOut_bound := indicesBelow_putLine h.lineOut_bound (by rw [interleave_length]; omega)
    lineOut_finite := numbersFinite_bufPutAll h.lineOut_finite (numbersFinite_interleave hf.pixels)
    status_code := Nat.zero_le 4
    context := fun _ => ?_
    no_context := fun hv' => absurd (hv.symm.trans hv') (by decide) }
  exact { hc with
    fi_coefficients := sameCoefficients_filterLine hc.fi_coefficients _ _
    fq_coefficients := sameCoefficients_filterLine hc.fq_coefficients _ _
    cb_bound := indicesBelow_putLine hc.cb_bound hchroma.le
    pl_bound := indicesBelow_putLine hc.pl_bound hlen.le
    pc_bound := indicesBelow_putLine hc.pc_bound hlen.le
    pl_filled := filledBelow_putLine s.pl hlen
    pc_filled := filledBelow_putLine s.pc hlen
    fi_finite := hf.fi
    fq_finite := hf.fq
    cb_finite := values_bufPutAll hc.cb_finite fun c hm _ => hf.chroma c hm
    waiting_harmonic := fun d hd => absurd (hidle.symm.trans hd) (by simp) }

/-- What may stand in `waiting` of a live context. -/
theorem Inv.withWaiting (h : Inv P s) (hv : s.ctxValid = 1) {wait : Option Waiting}
    (hwait : ∀ d, wait = some d → s.hmode = 1 ∧ WaitingGood P.num (lineWidth s) d ∧ filledBelow (lineWidth s) s.lineIn)
    (answers : List (List (Estimate Number))) (queries : List (Query Number)) :
    Inv P { s with estAnswers := answers, estQueries := queries, waiting := wait } :=
  { h with
    context := fun _ => { h.context hv with waiting_harmonic := hwait }
    no_context := fun hv' => absurd (hv.symm.trans hv') (by decide) }

/-! ### The commands and the steps -/

/-- How a DECODE that answers a state has gone on a line of whole length and finite values: to its end, or as far as the
answers went, with the line kept for the next. -/
inductive DecodeOutcome (P : Params Number) (s t : State) : Prop where
  | finished (answers : List (List (Estimate Number))) (queries : List (Query Number)) (sw cw ls xs x : List Number)
      (windows : readWindows s = .ok (sw, cw)) (samples : readSamples P s = .ok x) (width_low : 3 ≤ lineWidth s)
      (ls_length : ls.length = lineWidth s) (xs_length : xs.length = lineWidth s)
      (finite : FiniteLine P.num (decodeLine P.num s.fi s.fq sw cw ls xs))
      (result : t = decodedState P { s with estAnswers := answers, estQueries := queries, waiting := none } sw cw ls xs x)
  | waits (queries : List (Query Number)) (x : List Number) (d : Waiting) (harmonic : s.hmode ≠ 0)
      (good : WaitingGood P.num (lineWidth s) d) (samples : readSamples P s = .ok x)
      (result : t = { s with estAnswers := [], estQueries := queries, waiting := some d })

theorem decodeAfterCancel_outcome {xs : List (Tracked Number)} {x : List Number} {r' : CancelResult (Tracked Number)}
    {r : CancelResult Number} (hm : s.hmode ≠ 0) (hx : readSamples P s = .ok x) (hsound : ∀ v ∈ xs, Sound P.num v)
    (hxs : (values xs).length = lineWidth s)
    (hr : (∃ ls rest q, r = .done ls rest q ∧ ls.length = lineWidth s) ∨
      (∃ b ls q, r = .waiting b ls q ∧ ls.length = lineWidth s ∧ blockInLine (lineWidth s) b = true))
    (htracks : ResultTracks P.num r' r) (hf : cancelFinite P s xs r' = true)
    (h : decodeAfterCancel P s (values xs) r = .ok t) : DecodeOutcome P s t := by
  rcases decodeAfterCancel_finite hsound htracks hf h with
    ⟨ls, answers, sent, sw, cw, x, rfl, hwin, hx, h3, ht, hline⟩ | ⟨b, ls, sent, rfl, fls, fxs, ht⟩
  · rcases hr with ⟨_, _, _, hdone, hls⟩ | ⟨_, _, _, hwaits, -⟩
    · cases hdone
      exact .finished answers _ sw cw ls _ x hwin hx h3 hls hxs hline ht
    · cases hwaits
  · rcases hr with ⟨_, _, _, hdone, -⟩ | ⟨_, _, _, hwaits, hls, hblock⟩
    · cases hdone
    · cases hwaits
      exact .waits _ x _ hm ⟨hls, hxs, hblock, fls, fxs⟩ hx ht

/-- A plain DECODE whose tracked values are finite. -/
theorem decodeFinite_plain {x pl pc : List Number} (hm : s.hmode = 0) (hx : readSamples P s = .ok x)
    (hpc : readHistory .pc s.pc s = .ok pc) (hpl : readHistory .pl s.pl s = .ok pl) (hf : decodeFinite P s = true) :
    ∃ ls xs, values ls = combLuma P.num x pl ∧ values xs = combChroma P.num x pc ∧ finishFinite P s ls xs = true := by
  simp only [decodeFinite, hx, hpc, hpl, hm, if_true] at hf
  exact ⟨_, _, by rw [combLuma_values, values_track, values_track], by rw [combChroma_values, values_track, values_track],
    hf⟩

theorem with_waiting_none (hidle : s.waiting = none) :
    { s with estAnswers := s.estAnswers, estQueries := s.estQueries, waiting := none } = s := by rw [← hidle]

theorem decodeContext_outcome (hidle : s.hmode = 0 → s.waiting = none) (hf : decodeFinite P s = true)
    (h : decodeContext P s = .ok t) : DecodeOutcome P s t := by
  obtain ⟨x, pc, hx, hpc, hmode⟩ := decodeContext_eq_ok h
  have hxs := combChroma_length (N := P.num) (readSamples_length hx) (readHistory_length hpc)
  rcases hmode with ⟨hm, pl, hpl, hfinish⟩ | ⟨hm, hcancel⟩
  · obtain ⟨ls, xs, els, exs, hfinite⟩ := decodeFinite_plain hm hx hpc hpl hf
    rw [← els, ← exs] at hfinish
    obtain ⟨sw, cw, x', hwin, hx', h3, ht, hline⟩ := decodeFinish_finite hfinite hfinish
    refine .finished s.estAnswers s.estQueries sw cw _ _ x' hwin hx' h3 ?_ (exs ▸ hxs) hline ?_
    · rw [els]; exact combLuma_length (readSamples_length hx) (readHistory_length hpl)
    · rw [with_waiting_none (hidle hm)]; exact ht
  · obtain ⟨xs, r, exs, hsound, htracks, hfinite⟩ := decodeFinite_harmonic hm hx hpc hf
    rw [← exs] at hcancel
    refine decodeAfterCancel_outcome hm hx hsound (exs ▸ hxs) ?_ (exs ▸ htracks) hfinite hcancel
    have hcases := hrcLoop_cases P.num (lineWidth s) (values xs) (lineWidth s + 1) 0 x s.estAnswers []
    rwa [readSamples_length hx] at hcases

theorem decodeResume_outcome {d : Waiting} {a : List (Estimate Number)} {as : List (List (Estimate Number))}
    {x : List Number} (hm : s.hmode ≠ 0) (hd : WaitingGood P.num (lineWidth s) d) (hx : readSamples P s = .ok x)
    (hf : resumeFinite P s d a as = true) (h : decodeResume P s d a as = .ok t) : DecodeOutcome P s t := by
  obtain ⟨r, htracks, hfinite⟩ := resumeFinite_tracks hf
  rw [decodeResume] at h
  rw [← values_track P.num d.xs] at h htracks
  refine decodeAfterCancel_outcome hm hx (track_list_sound P.num d.xs) ?_ ?_ htracks hfinite h
  · rw [values_track]; exact hd.xs_length
  · have hcases := hrcLoop_cases P.num (lineWidth s) (values (d.xs.map (track P.num))) (lineWidth s + 1) (d.block + 1)
      (hrcBlock P.num d.block a d.ls) as []
    rwa [hrcBlock_length, hd.ls_length] at hcases

theorem readSamples_filled {x : List Number} (hx : readSamples P s = .ok x) : filledBelow (lineWidth s) s.lineIn :=
  fun _ hi => readSamples_isSome hx hi

theorem filledBelow_exists_values {n : Nat} {b : Buffer Number} (h : filledBelow n b) :
    ∃ x : Nat → Number, ∀ i, i < n → bufGet b i = some (x i) :=
  ⟨fun i => (bufGet b i).getD default, fun i hi => by
    obtain ⟨v, hv⟩ := Option.isSome_iff_exists.1 (h i hi)
    simp only [hv, Option.getD_some]⟩

theorem readSamples_of_filled (hcap : lineWidth s ≤ lineCapacity P) (h : filledBelow (lineWidth s) s.lineIn) :
    ∃ x, readSamples P s = .ok x :=
  have ⟨_, hx⟩ := filledBelow_exists_values h
  ⟨_, readSamples_of_get hcap hx⟩

theorem Inv.of_decodeOutcome (h : Inv P s) (hv : s.ctxValid = 1) (ho : DecodeOutcome P s t) : Inv P t := by
  cases ho with
  | finished answers queries sw cw ls xs x hwin hx _ hls hxs hf ht =>
    have hidle := h.withWaiting hv (wait := none) (fun d hd => absurd hd (by simp)) answers queries
    exact ht ▸ hidle.decodedState hv rfl hwin hx hls hxs hf
  | waits queries x d hm hd hx ht =>
    have hone : s.hmode = 1 := eq_one_of_ne_zero hm
    refine ht ▸ h.withWaiting hv (fun d' hd' => ?_) [] queries
    cases hd'
    exact ⟨hone, hd, readSamples_filled hx⟩

/-- A command on an idle engine. -/
theorem Inv.execWith (h : Inv P s) (hidle : s.waiting = none) {i : Instr} (he : execWith P i s = .next t) : Inv P t := by
  rcases execWith_eq_next he with ⟨e, rfl⟩ | ⟨width, hm, -, hv, h3, hw, hf, rfl⟩ | ⟨-, hv, hf, ht⟩ | ⟨-, hv, hf, ht⟩ |
    ⟨-, -, rfl⟩
  · exact h.raiseError e
  · exact h.createContext hv h3 hw hf hm
  · exact h.encodeContext hv hidle hf ht
  · exact h.of_decodeOutcome hv (decodeContext_outcome (fun _ => hidle) hf ht)
  · exact h.destroyContext hidle

theorem Inv.valid_of_waiting (h : Inv P s) {d : Waiting} (hd : s.waiting = some d) : s.ctxValid = 1 := by
  rcases ctxValid_cases s with hv | hv
  · exact absurd ((h.idle_of_no_context hv).symm.trans hd) (by simp)
  · exact hv

theorem Inv.decodeResume (h : Inv P s) {d : Waiting} (hd : s.waiting = some d) {a : List (Estimate Number)}
    {as : List (List (Estimate Number))} (hf : resumeFinite P s d a as = true)
    (ht : decodeResume P s d a as = .ok t) : Inv P t := by
  have hv := h.valid_of_waiting hd
  have hc := h.context hv
  obtain ⟨hm, hgood, hfilled⟩ := hc.waiting_harmonic d hd
  have hcap := lineWidth_le_capacity hc.width_high
  obtain ⟨x, hx⟩ := readSamples_of_filled (P := P) (by omega) hfilled
  exact h.of_decodeOutcome hv (decodeResume_outcome (by rw [hm]; decide) hgood hx hf ht)

theorem Inv.consume (h : Inv P s) (rest : List HostMove) : Inv P { s with hostMoves := rest } :=
  h.withAgents h.status_code rest s.hostReads s.estAnswers s.estQueries s.freeCount s.resetCount

theorem Inv.engineStep (h : Inv P s) (hs : engineStep P s = .next t) : Inv P t := by
  rcases step_cases hs with rfl | ⟨rest, -, rfl⟩ | ⟨rest, k, v, hidle, -, hk, rfl⟩ | ⟨-, rest, reads, n, -, -, rfl⟩ |
    ⟨-, rest, e, -, -, rfl⟩ | ⟨c, rest, i, hidle, -, -, he⟩ | ⟨d, a, as, hd, -, hf, ht⟩
  · exact h
  · exact Inv.hardReset P _
  · exact (h.consume rest).writeLineIn hidle hk v
  · exact h.withAgents h.status_code rest reads s.estAnswers s.estQueries n s.resetCount
  · exact (h.consume rest).raiseError e
  · exact (h.consume rest).execWith hidle he
  · exact h.decodeResume hd hf ht

/-- Settles O46: by the kinds of step, each of which keeps the invariant by a lemma of its own. -/
theorem everyStepKeepsTheInvariant : Obligations.EveryStepKeepsTheInvariant :=
  ⟨fun _ _ _ h hs => h.engineStep hs, fun s _ h hs => h.engineStep ((step_eq s).symm.trans hs)⟩

end Sys2Proof.Machine

/-! PROOFS, what every step keeps (10_state.md rules R22 to R33): the effect of a step said once, and the statements on a live
context's constants, `PHASE`, the filters and the line buffers as uses of it. -/

namespace Sys2Proof.Machine

/-! ### The effect of a step -/

/-- The state of a filter after a line is that after BQ.PROCESS on the line and three zeros, for lines of any length. -/
theorem filterLine_snd {α : Type} (N : NumFormat α) (F : Biquad α) (xs : List α) :
    (filterLine N F xs).2 = (bqRun N F (xs ++ List.replicate shift (numZero N))).2 := by
  have hxs : xs ++ List.replicate shift (numZero N) =
      xs.take shift ++ (xs.drop shift ++ List.replicate shift (numZero N)) := by
    rw [← List.append_assoc, List.take_append_drop]
  rw [hxs, bqRun_append, bqRun_append]
  rfl

theorem togglePhase_eq_not (p : BitVec 1) : togglePhase p = ~~~p := by
  revert p
  decide

/-- Everything that a completed line command leaves as it was or sets in a known way; the filters have taken the inputs `us`
and `vs`. -/
structure LineCompleted (P : Params Number) (us vs : List Number) (s t : State) : Prop where
  ctxValid : t.ctxValid = s.ctxValid
  width : t.width = s.width
  hmode : t.hmode = s.hmode
  sin : t.sin = s.sin
  cos : t.cos = s.cos
  lineIn : t.lineIn = s.lineIn
  phase : t.phase = togglePhase s.phase
  status : t.status = 0
  waiting : t.waiting = none
  fi : t.fi = (bqRun P.num s.fi us).2
  fq : t.fq = (bqRun P.num s.fq vs).2

/-- Everything of the context and of `LINE_OUT` that a step keeps when it completes no line command and makes or ends no
context. -/
structure ContextKept (s t : State) : Prop where
  ctxValid : t.ctxValid = s.ctxValid
  width : t.width = s.width
  hmode : t.hmode = s.hmode
  phase : t.phase = s.phase
  fi : t.fi = s.fi
  fq : t.fq = s.fq
  sin : t.sin = s.sin
  cos : t.cos = s.cos
  lineOut : t.lineOut = s.lineOut

/-- A DECODE in progress belongs to a live context and a line of its width. -/
def WaitingFits (s : State) : Prop := ∀ d, s.waiting = some d → s.ctxValid = 1 ∧ d.xs.length = lineWidth s

/-- What a step can do to the engine: a reset, a context made or ended, a line command completed, an
element of `LINE_IN` written, or none of these. -/
inductive StepEffect (P : Params Number) (s t : State) : Prop where
  | reset (move : s.hostMoves.head? = some .reset) (none : t.ctxValid = 0)
  | context (flips : t.ctxValid ≠ s.ctxValid) (lineIn : t.lineIn = s.lineIn) (lineOut : t.lineOut = s.lineOut)
  | completed (us vs : List Number) (line : LineCompleted P us vs s t)
      (lengths : WaitingFits s → us.length = lineWidth s + 3 ∧ vs.length = lineWidth s + 3)
      (live : WaitingFits s → s.ctxValid = 1)
      (command : s.hostMoves.head? = some (.command 0x20000000#32) ∨ s.hostMoves.head? = some (.command 0x30000000#32) ∨
        s.waiting.isSome)
  | hostWrite (k : Nat) (v : Number) (move : s.hostMoves.head? = some (.writeLineIn k v)) (rest : ContextKept s t)
  | kept (rest : ContextKept s t) (lineIn : t.lineIn = s.lineIn)

variable {P : Params Number} {s t : State}

/-- The agents' fields and a command in progress are no part of what a completed line changes. -/
theorem LineCompleted.of_agents {us vs : List Number} {moves : List HostMove} {answers : List (List (Estimate Number))}
    {queries : List (Query Number)} {wait : Option Waiting}
    (h : LineCompleted P us vs { s with hostMoves := moves, estAnswers := answers, estQueries := queries, waiting := wait } t) :
    LineCompleted P us vs s t := { h with }

theorem encodeContext_completed (hidle : s.waiting = none) (h : encodeContext P s = .ok t) :
    ∃ us vs, LineCompleted P us vs s t ∧ us.length = lineWidth s + 3 ∧ vs.length = lineWidth s + 3 := by
  obtain ⟨sw, cw, pixels, -, hp, -, -, rfl⟩ := encodeContext_eq_ok h
  have hlen := readPixels_length hp
  refine ⟨_, _, ⟨rfl, rfl, rfl, rfl, rfl, rfl, rfl, rfl, hidle, filterLine_snd .., filterLine_snd ..⟩, ?_, ?_⟩ <;>
    simp [hlen, shift]

theorem decodeFinish_completed {ls xs : List Number} (hidle : s.waiting = none) (h : decodeFinish P s ls xs = .ok t) :
    ∃ us vs, LineCompleted P us vs s t ∧
      (xs.length = lineWidth s → us.length = lineWidth s + 3 ∧ vs.length = lineWidth s + 3) := by
  obtain ⟨sw, cw, x, hwin, -, -, -, -, rfl⟩ := decodeFinish_eq_ok h
  obtain ⟨hsw, hcw⟩ := readWindows_eq_ok.1 hwin
  refine ⟨_, _, ⟨rfl, rfl, rfl, rfl, rfl, rfl, rfl, rfl, hidle, filterLine_snd .., filterLine_snd ..⟩, fun hxs => ?_⟩
  simp [hxs, cgenWindow_length hsw, cgenWindow_length hcw, shift]

theorem decodeAfterCancel_completed {xs : List Number} {r : CancelResult Number}
    (h : decodeAfterCancel P s xs r = .ok t) :
    (ContextKept s t ∧ t.lineIn = s.lineIn) ∨ ∃ us vs, LineCompleted P us vs s t ∧
      (xs.length = lineWidth s → us.length = lineWidth s + 3 ∧ vs.length = lineWidth s + 3) := by
  rcases decodeAfterCancel_eq_ok h with ⟨ls, answers, sent, -, hfinish⟩ | ⟨b, ls, sent, -, rfl⟩
  · obtain ⟨us, vs, hline, hlen⟩ := decodeFinish_completed rfl hfinish
    exact .inr ⟨us, vs, hline.of_agents, hlen⟩
  · exact .inl ⟨⟨rfl, rfl, rfl, rfl, rfl, rfl, rfl, rfl, rfl⟩, rfl⟩

theorem decodeContext_completed (hidle : s.waiting = none) (h : decodeContext P s = .ok t) :
    (ContextKept s t ∧ t.lineIn = s.lineIn) ∨
      ∃ us vs, LineCompleted P us vs s t ∧ us.length = lineWidth s + 3 ∧ vs.length = lineWidth s + 3 := by
  obtain ⟨x, pc, hx, hpc, hmode⟩ := decodeContext_eq_ok h
  have hxs := combChroma_length (N := P.num) (readSamples_length hx) (readHistory_length hpc)
  rcases hmode with ⟨-, pl, -, hfinish⟩ | ⟨-, hcancel⟩
  · obtain ⟨us, vs, hline, hlen⟩ := decodeFinish_completed hidle hfinish
    exact .inr ⟨us, vs, hline, hlen hxs⟩
  · refine (decodeAfterCancel_completed hcancel).imp id ?_
    rintro ⟨us, vs, hline, hlen⟩
    exact ⟨us, vs, hline, hlen hxs⟩

/-- What a command does on an idle engine that has taken the command's word from the host. -/
theorem execWith_effect {c : CommandWord} {rest : List HostMove} {i : Instr} (hidle : s.waiting = none)
    (hmoves : s.hostMoves = .command c :: rest) (hd : decode c = .ok i)
    (h : execWith P i { s with hostMoves := rest } = .next t) : StepEffect P s t := by
  have hhead : s.hostMoves.head? = some (.command c) := by rw [hmoves]; rfl
  rcases execWith_eq_next h with ⟨e, rfl⟩ | ⟨width, hm, -, hv, -, -, -, rfl⟩ | ⟨rfl, hv, -, ht⟩ | ⟨rfl, hv, -, ht⟩ |
    ⟨-, hv, rfl⟩
  · exact .kept ⟨rfl, rfl, rfl, rfl, rfl, rfl, rfl, rfl, rfl⟩ rfl
  · exact .context (fun heq => absurd (heq.trans hv) (show ¬ 1#1 = 0#1 by decide)) rfl rfl
  · rw [decode_eq_encode.1 hd] at hhead
    obtain ⟨us, vs, hline, hlen⟩ := encodeContext_completed (s := { s with hostMoves := rest }) hidle ht
    exact .completed us vs { hline with } (fun _ => hlen) (fun _ => hv) (.inl hhead)
  · rw [decode_eq_decode.1 hd] at hhead
    rcases decodeContext_completed (s := { s with hostMoves := rest }) hidle ht with ⟨hkept, hin⟩ | ⟨us, vs, hline, hlen⟩
    · exact .kept { hkept with } hin
    · exact .completed us vs { hline with } (fun _ => hlen) (fun _ => hv) (.inr (.inl hhead))
  · exact .context (fun heq => absurd (heq.trans hv) (show ¬ 0#1 = 1#1 by decide)) rfl rfl

/-- What a step does, whatever the state. -/
theorem engineStep_effect (h : engineStep P s = .next t) : StepEffect P s t := by
  rcases step_cases h with rfl | ⟨rest, hm, rfl⟩ | ⟨rest, k, v, -, hm, -, rfl⟩ | ⟨-, rest, reads, n, -, -, rfl⟩ |
    ⟨-, rest, e, -, -, rfl⟩ | ⟨c, rest, i, hidle, hm, hd, he⟩ | ⟨d, a, as, hd, -, -, ht⟩
  · exact .kept ⟨rfl, rfl, rfl, rfl, rfl, rfl, rfl, rfl, rfl⟩ rfl
  · exact .reset (by rw [hm]; rfl) rfl
  · exact .hostWrite k v (by rw [hm]; rfl) ⟨rfl, rfl, rfl, rfl, rfl, rfl, rfl, rfl, rfl⟩
  · exact .kept ⟨rfl, rfl, rfl, rfl, rfl, rfl, rfl, rfl, rfl⟩ rfl
  · exact .kept ⟨rfl, rfl, rfl, rfl, rfl, rfl, rfl, rfl, rfl⟩ rfl
  · exact execWith_effect hidle hm hd he
  · rcases decodeAfterCancel_completed ht with ⟨hkept, hin⟩ | ⟨us, vs, hline, hlen⟩
    · exact .kept hkept hin
    · exact .completed us vs hline (fun hfits => hlen (hfits d hd).2) (fun hfits => (hfits d hd).1)
        (.inr (.inr (by rw [hd]; rfl)))

/-- Between two states with a live context a step completes a line command or keeps the context. -/
theorem engineStep_live (h : engineStep P s = .next t) (hs : s.ctxValid = 1) (ht : t.ctxValid = 1) :
    ContextKept s t ∨ ∃ us vs, LineCompleted P us vs s t ∧
      (WaitingFits s → us.length = lineWidth s + 3 ∧ vs.length = lineWidth s + 3) ∧
      (s.hostMoves.head? = some (.command 0x20000000#32) ∨ s.hostMoves.head? = some (.command 0x30000000#32) ∨
        s.waiting.isSome) := by
  cases engineStep_effect h with
  | reset _ hnone => exact absurd (hnone.symm.trans ht) (by decide)
  | context hflips => exact absurd (ht.trans hs.symm) hflips
  | completed us vs hline hlen _ hcommand => exact .inr ⟨us, vs, hline, hlen, hcommand⟩
  | hostWrite _ _ _ hkept => exact .inl hkept
  | kept hkept => exact .inl hkept

theorem Inv.waitingFits (h : Inv P s) : WaitingFits s := by
  intro d hd
  have hv := h.valid_of_waiting hd
  exact ⟨hv, ((h.context hv).waiting_harmonic d hd).2.1.xs_length⟩

/-! ### The statements -/

/-- Settles O48: a completed line runs the filters, which keep their coefficients; any other step keeps the filters. -/
theorem liveContextKeepsItsConstants : Obligations.LiveContextKeepsItsConstants := by
  intro P s t h hs ht
  rcases engineStep_live h hs ht with hkept | ⟨us, vs, hline, -, -⟩
  · rw [hkept.fi, hkept.fq]
    exact ⟨hkept.width, hkept.hmode, hkept.sin, hkept.cos, ⟨rfl, rfl, rfl, rfl, rfl⟩, ⟨rfl, rfl, rfl, rfl, rfl⟩⟩
  · rw [hline.fi, hline.fq]
    exact ⟨hline.width, hline.hmode, hline.sin, hline.cos, bqRun_coefficients P.num s.fi us,
      bqRun_coefficients P.num s.fq vs⟩

/-- Settles O49: a step that changes `PHASE` completed a line command. -/
theorem phaseTogglesOnlyOnLineCommands : Obligations.PhaseTogglesOnlyOnLineCommands := by
  intro P s t h hs ht hphase
  rcases engineStep_live h hs ht with hkept | ⟨us, vs, hline, -, hcommand⟩
  · exact absurd hkept.phase hphase
  · exact ⟨hline.phase.trans (togglePhase_eq_not s.phase), hline.status, hline.waiting, hcommand⟩

/-- Settles O50: a completed line command runs each filter over the line and three zeros. -/
theorem filtersAdvanceOnlyByProcess : Obligations.FiltersAdvanceOnlyByProcess := by
  intro P s t hinv h hs ht
  rcases engineStep_live h hs ht with hkept | ⟨us, vs, hline, hlen, -⟩
  · exact .inl ⟨hkept.fi, hkept.fq, hkept.phase⟩
  · obtain ⟨hus, hvs⟩ := hlen hinv.waitingFits
    exact .inr ⟨us, vs, hus, hvs, hline.phase.trans (togglePhase_eq_not s.phase), hline.fi, hline.fq⟩

/-- Settles O51: the writer of each buffer, by the effect of the step. -/
theorem lineBuffersHaveTheirWriters : Obligations.LineBuffersHaveTheirWriters := by
  intro P s t hinv h
  cases engineStep_effect h with
  | reset hmove _ => exact ⟨fun _ => .inl hmove, fun _ => .inl hmove⟩
  | context _ hin hout => exact ⟨fun hne => absurd hin hne, fun hne => absurd hout hne⟩
  | completed us vs hline _ hlive _ =>
    exact ⟨fun hne => absurd hline.lineIn hne,
      fun _ => .inr ⟨hlive hinv.waitingFits, hline.phase.trans (togglePhase_eq_not s.phase), hline.status⟩⟩
  | hostWrite k v hmove hkept => exact ⟨fun _ => .inr ⟨k, v, hmove⟩, fun hne => absurd hkept.lineOut hne⟩
  | kept hkept hin => exact ⟨fun hne => absurd hin hne, fun hne => absurd hkept.lineOut hne⟩

end Sys2Proof.Machine

/-! PROOFS, the faults: an input line the host has not written whole (70_reset_and_hazards.md rule R333) and a silent estimator
(rule R341), and no other (20_memory.md rule R62). -/

namespace Sys2Proof.Machine

variable {P : Params Number} {s t : State} {f : Fault}

/-! ### Reading the input line -/

/-- The first read decides, and where it succeeds the others do. -/
theorem collect_succ_eq_error {β : Type} {g : Nat → Except Fault β} {start n : Nat} :
    collect g start (n + 1) = .error f ↔
      g start = .error f ∨ (∃ x, g start = .ok x) ∧ collect g (start + 1) n = .error f := by
  simp only [collect, bind, Except.bind]
  cases g start with
  | error e => simp
  | ok x => cases collect g (start + 1) n <;> simp

/-- A pixel has a value where its three elements have. -/
theorem readPixel_exists_ok {i : Nat} :
    (∃ p, readPixel P s i = .ok p) ↔ (∃ r, readLineIn P s (3 * i) = .ok r) ∧
      (∃ g, readLineIn P s (3 * i + 1) = .ok g) ∧ ∃ b, readLineIn P s (3 * i + 2) = .ok b := by
  simp only [readPixel, bind, Except.bind]
  cases readLineIn P s (3 * i) with
  | error e => simp
  | ok r =>
    cases readLineIn P s (3 * i + 1) with
    | error e => simp
    | ok g => cases readLineIn P s (3 * i + 2) <;> simp

theorem readPixel_eq_error {i : Nat} :
    readPixel P s i = .error f ↔ collect (readLineIn P s) (3 * i) 3 = .error f := by
  simp only [readPixel, collect, bind, Except.bind]
  cases readLineIn P s (3 * i) with
  | error e => simp
  | ok r =>
    cases readLineIn P s (3 * i + 1) with
    | error e => simp
    | ok g => cases readLineIn P s (3 * i + 2) <;> simp

/-- Three elements per pixel: reading pixels faults where reading the elements one by one faults. -/
theorem collect_readPixel_eq_error (start n : Nat) :
    collect (readPixel P s) start n = .error f ↔ collect (readLineIn P s) (3 * start) (3 * n) = .error f := by
  induction n generalizing start with
  | zero => simp [collect]
  | succ n ih =>
    have hstart : 3 * (start + 1) = 3 * start + 1 + 1 + 1 := by omega
    have hn : 3 * (n + 1) = 3 * n + 1 + 1 + 1 := by omega
    have hnil : ∀ k, collect (readLineIn P s) k 0 ≠ .error f := fun _ => nofun
    rw [collect_succ_eq_error, ih, hstart, hn, readPixel_eq_error, readPixel_exists_ok]
    simp only [collect_succ_eq_error, hnil, and_false, or_false, and_or_left, or_assoc, and_assoc]

theorem readPixels_eq_error :
    readPixels P s = .error f ↔ collect (readLineIn P s) 0 (3 * lineWidth s) = .error f :=
  collect_readPixel_eq_error 0 (lineWidth s)

/-- The first element that the host has not written stops the read of the line. -/
theorem readLine_unwritten {n k : Nat} {x : Nat → Number} (hk : k < n) (hn : n ≤ lineCapacity P)
    (hbefore : ∀ i, i < k → bufGet s.lineIn i = some (x i)) (hnone : bufGet s.lineIn k = none) :
    collect (readLineIn P s) 0 n = .error (.noValue .lineIn k) := by
  rw [collect_eq_error]
  refine ⟨k, hk, ?_, fun i hi => ⟨x i, ?_⟩⟩ <;> rw [Nat.zero_add]
  · exact memRead_eq_error.2 (.inr ⟨by omega, hnone, rfl⟩)
  · exact memRead_eq_ok.2 ⟨by omega, hbefore i hi⟩

/-- Inside the buffer only an element the host has not written stops the read of the line. -/
theorem unwrittenInput_of_readLine {n : Nat} (hn : n ≤ lineCapacity P)
    (h : collect (readLineIn P s) 0 n = .error f) : unwrittenInput f := by
  obtain ⟨k, hk, hread, -⟩ := collect_eq_error.1 h
  rw [Nat.zero_add] at hread
  rcases memRead_eq_error.1 hread with ⟨hout, -⟩ | ⟨-, -, rfl⟩
  · omega
  · exact ⟨k, rfl⟩

/-! ### The line commands whose input line is not whole -/

theorem encodeWith_of_unreadable {sw cw : List Number} (hv : s.ctxValid = 1) (hwin : readWindows s = .ok (sw, cw))
    (hp : readPixels P s = .error f) : encodeWith P s = .fault f := by
  rw [encodeWith_context P hv, requireFinite_eq_fault]
  simp only [encodeFinite, encodeContext, hwin, hp, bind, Except.bind, and_self]

theorem decodeWith_of_unreadable (hv : s.ctxValid = 1) (hx : readSamples P s = .error f) : decodeWith P s = .fault f := by
  rw [decodeWith_context P hv, requireFinite_eq_fault]
  simp only [decodeFinite, decodeContext, hx, bind, Except.bind, and_self]

theorem LineReady.capacity {w n : Nat} {sn cs x : Nat → Number} (h : LineReady P s w n sn cs x) :
    3 * w ≤ lineCapacity P := Nat.mul_le_mul_left 3 h.width_high

theorem LineReady.windows {w n : Nat} {sn cs x : Nat → Number} (h : LineReady P s w n sn cs x) :
    readWindows s = .ok ((List.range w).map fun j => sn (s.phase.toNat * w + j),
      (List.range w).map fun j => cs (s.phase.toNat * w + j)) := by
  obtain rfl := h.width
  exact readWindows_eq_ok.2 ⟨cgenWindow_of_get h.sin, cgenWindow_of_get h.cos⟩

/-- Settles O31: the pixels are read after the windows, element by element. -/
theorem encodeFaultsAtTheFirstUnwrittenElement : Obligations.EncodeFaultsAtTheFirstUnwrittenElement := by
  intro s w k sn cs x h hk hnone
  have hread := readLine_unwritten (P := Config.params) hk h.capacity h.input hnone
  rw [← h.width] at hread
  exact encodeWith_of_unreadable h.valid h.windows (readPixels_eq_error.2 hread)

/-- Settles O36: both modes read the line first. -/
theorem decodeFaultsAtTheFirstUnwrittenElement : Obligations.DecodeFaultsAtTheFirstUnwrittenElement := by
  intro s w k sn cs x h hk hnone
  have hcap := h.capacity
  have hread := readLine_unwritten (P := Config.params) hk (by omega) h.input hnone
  rw [← h.width] at hread
  exact decodeWith_of_unreadable h.valid hread

/-! ### The faults from a state of the invariant -/

theorem ContextGood.windows (hc : ContextGood P s) : ∃ sw cw, readWindows s = .ok (sw, cw) := by
  have hsin : ∀ i, i < 2 * lineWidth s → bufGet s.sin i = some _ := fun i hi => by
    rw [hc.sin_table, cgenSin, bufGet_bufTabulate, if_pos hi]
  have hcos : ∀ i, i < 2 * lineWidth s → bufGet s.cos i = some _ := fun i hi => by
    rw [hc.cos_table, cgenCos, bufGet_bufTabulate, if_pos hi]
  exact ⟨_, _, readWindows_eq_ok.2 ⟨cgenWindow_of_get hsin, cgenWindow_of_get hcos⟩⟩

theorem readHistory_of_filled {name : BufferName} {b : Buffer Number} (h : filledBelow (lineWidth s) b) :
    ∃ l, readHistory name b s = .ok l :=
  have ⟨_, hx⟩ := filledBelow_exists_values h
  ⟨_, readHistory_of_get hx⟩

theorem encodeContext_fault (hc : ContextGood P s) (h : encodeContext P s = .error f) : unwrittenInput f := by
  obtain ⟨sw, cw, hwin⟩ := hc.windows
  have hcap := lineWidth_le_capacity hc.width_high
  cases hp : readPixels P s with
  | error f' =>
    simp only [encodeContext, hwin, hp, bind, Except.bind, Except.error.injEq] at h
    exact h ▸ unwrittenInput_of_readLine hcap (readPixels_eq_error.1 hp)
  | ok pixels => cases (encodeContext_of_reads hwin hp hc.width_low (by omega)).symm.trans h

/-- With the input line whole, no end of a DECODE faults. -/
theorem decodeFinish_ne_error (hc : ContextGood P s) {x ls xs : List Number} (hx : readSamples P s = .ok x)
    (hls : ls.length = lineWidth s) (hxs : xs.length = lineWidth s) : decodeFinish P s ls xs ≠ .error f := by
  obtain ⟨sw, cw, hwin⟩ := hc.windows
  rw [decodeFinish_of_reads hwin hx hc.width_low (lineWidth_le_capacity hc.width_high) hls hxs]
  exact nofun

theorem decodeAfterCancel_ne_error (hc : ContextGood P s) {x xs : List Number} (hx : readSamples P s = .ok x)
    (hxs : xs.length = lineWidth s) (fuel b : Nat) {ls : List Number} (hls : ls.length = lineWidth s)
    (answers : List (List (Estimate Number))) :
    decodeAfterCancel P s xs (hrcLoop P.num (lineWidth s) xs fuel b ls answers []) ≠ .error f := by
  rcases hrcLoop_cases P.num (lineWidth s) xs fuel b ls answers [] with ⟨ls', rest, q, e, hl⟩ | ⟨b', ls', q, e, -, -⟩
  · have hc' : ContextGood P { s with estAnswers := rest, estQueries := s.estQueries ++ q, waiting := none } :=
      { hc with waiting_harmonic := fun d hd => absurd hd (by simp) }
    rw [e]
    exact decodeFinish_ne_error hc' hx (hl.trans hls) hxs
  · rw [e]
    simp [decodeAfterCancel]

theorem decodeContext_fault (hc : ContextGood P s) (h : decodeContext P s = .error f) : unwrittenInput f := by
  have hcap := lineWidth_le_capacity hc.width_high
  obtain ⟨pl, hpl⟩ := readHistory_of_filled (name := .pl) hc.pl_filled
  obtain ⟨pc, hpc⟩ := readHistory_of_filled (name := .pc) hc.pc_filled
  cases hx : readSamples P s with
  | error f' =>
    simp only [decodeContext, hx, bind, Except.bind, Except.error.injEq] at h
    exact h ▸ unwrittenInput_of_readLine (n := lineWidth s) (by omega) hx
  | ok x =>
    have hlen := readSamples_length hx
    have hxs := combChroma_length (N := P.num) hlen (readHistory_length hpc)
    by_cases hm : s.hmode = 0
    · have hls := combLuma_length (N := P.num) hlen (readHistory_length hpl)
      exact absurd ((decodeContext_plain hm hx hpc hpl).symm.trans h) (decodeFinish_ne_error hc hx hls hxs)
    · exact absurd ((decodeContext_harmonic hm hx hpc).symm.trans h)
        (decodeAfterCancel_ne_error hc hx hxs _ _ hlen _)

theorem execWith_fault (hinv : Inv P s) {i : Instr} (h : execWith P i s = .fault f) : unwrittenInput f := by
  cases i with
  | create width hm => exact absurd h createWith_ne_fault
  | encode =>
    rcases ctxValid_cases s with hv | hv
    · cases (encodeWith_no_context P hv).symm.trans h
    · exact encodeContext_fault (hinv.context hv) (requireFinite_eq_fault.1 ((encodeWith_context P hv).symm.trans h)).2
  | decode =>
    rcases ctxValid_cases s with hv | hv
    · cases (decodeWith_no_context P hv).symm.trans h
    · exact decodeContext_fault (hinv.context hv) (requireFinite_eq_fault.1 ((decodeWith_context P hv).symm.trans h)).2
  | destroy =>
    rcases ctxValid_cases s with hv | hv
    · cases (execDestroy_no_context hv).symm.trans h
    · cases (execDestroy_context hv).symm.trans h

/-- Of the host's moves only a command can fault. -/
theorem hostMove_eq_fault {run : Execution} {m : HostMove} (h : hostMove P run m s = .fault f) :
    ∃ i, run i s = .fault f := by
  cases m with
  | reset => cases h
  | command c =>
    simp only [hostMove, issueCommand] at h
    split at h
    · exact ⟨_, h⟩
    · cases h
  | writeLineIn k v =>
    simp only [hostMove, hostWriteLineIn] at h
    split at h <;> cases h
  | readLineOut k =>
    simp only [hostMove, hostReadLineOut] at h
    split at h <;> cases h
  | readControl n =>
    simp only [hostMove, hostReadControl] at h
    split at h <;> cases h

theorem decodeResume_ne_fault (hinv : Inv P s) {d : Waiting} (hd : s.waiting = some d) {a : List (Estimate Number)}
    {as : List (List (Estimate Number))} : decodeResume P s d a as ≠ .error f := by
  have hc := hinv.context (hinv.valid_of_waiting hd)
  obtain ⟨-, hgood, hfilled⟩ := hc.waiting_harmonic d hd
  have hcap := lineWidth_le_capacity hc.width_high
  obtain ⟨x, hx⟩ := readSamples_of_filled (P := P) (by omega) hfilled
  exact decodeAfterCancel_ne_error hc hx hgood.xs_length _ _ ((hrcBlock_length ..).trans hgood.ls_length) _

/-- Settles O47: an idle engine faults in a line command, which the invariant leaves only its input line to miss; a waiting one
goes on without a fault when it is answered. -/
theorem onlyUnwrittenInputOrSilenceFaults : Obligations.OnlyUnwrittenInputOrSilenceFaults := by
  intro P s f hinv h
  cases hw : s.waiting with
  | none =>
    cases hm : s.hostMoves with
    | nil => cases (step_of_no_move hw hm).symm.trans h
    | cons m rest =>
      obtain ⟨i, hi⟩ := hostMove_eq_fault ((step_of_idle hw hm).symm.trans h)
      exact .inl (execWith_fault (hinv.consume rest) hi)
  | some d =>
    by_cases hr : s.hostMoves.head? = some .reset
    · obtain ⟨rest, hm⟩ : ∃ rest, s.hostMoves = .reset :: rest := List.head?_eq_some_iff.1 hr
      cases (step_of_waiting_reset hw hm).symm.trans h
    · cases ha : s.estAnswers with
      | nil =>
        cases (step_of_waiting_silence hw hr ha).symm.trans h
        exact .inr rfl
      | cons a as =>
        have hfault := (requireFinite_eq_fault.1 ((step_of_waiting_answer hw hr ha).symm.trans h)).2
        exact absurd hfault (decodeResume_ne_fault hinv hw)

end Sys2Proof.Machine

/-! PROOFS, the carrier generator, continued: the range of the carrier frequency (40_carrier_generator.md rule R129), the
tables over ℝ (rule R121) and the window (rule R123). -/

namespace Sys2Proof.Machine

theorem carrierFreq_le_width {w : Nat} (h3 : 3 ≤ w) : carrierFreq w ≤ w := by
  rw [carrierFreq_eq_ite]
  split <;> omega

/-- Only at `w = 3` does setting the low bit reach the width. -/
theorem carrierFreq_eq_width_iff {w : Nat} (h3 : 3 ≤ w) : carrierFreq w = w ↔ w = 3 := by
  rw [carrierFreq_eq_ite]
  split <;> omega

theorem three_le_carrierFreq {w : Nat} (h3 : 3 ≤ w) : 3 ≤ carrierFreq w := by
  rw [carrierFreq_eq_ite]
  split <;> omega

/-- The lowest ratio is 3 / 5, at `w = 5`. From width 9 on the quotient alone is large enough; below it are six widths. -/
theorem three_mul_le_five_mul_carrierFreq {w : Nat} (h3 : 3 ≤ w) : 3 * w ≤ 5 * carrierFreq w := by
  rcases Nat.lt_or_ge w 9 with hsmall | hlarge
  · interval_cases w <;> decide
  · rw [carrierFreq_eq_ite]
    split <;> omega

/-- The frequency is within 1 of `50 w / 73`, over `73`. -/
theorem carrierFreq_near (w : Nat) : 50 * w < 73 * carrierFreq w + 73 ∧ 73 * carrierFreq w ≤ 50 * w + 73 := by
  obtain ⟨hlow, hhigh⟩ := carrierFreq_bounds w
  omega

/-- Settles O21: the integer bounds, divided by the width. -/
theorem carrierFrequencyRange : Obligations.CarrierFrequencyRange := by
  intro w h3 hmax
  have hw : (0 : ℚ) < w := Nat.cast_pos.2 (by omega)
  have hle := carrierFreq_le_width h3
  have hratio : (3 * w : ℚ) ≤ 5 * carrierFreq w := mod_cast three_mul_le_five_mul_carrierFreq h3
  obtain ⟨hlow, hhigh⟩ := carrierFreq_near w
  have hlow' : (50 * w : ℚ) < 73 * carrierFreq w + 73 := mod_cast hlow
  have hhigh' : (73 * carrierFreq w : ℚ) ≤ 50 * w + 73 := mod_cast hhigh
  have below : (50 / 73 - 1 / w : ℚ) = (50 / 73 * w - 1) / w := by field_simp
  have above : (50 / 73 + 1 / w : ℚ) = (50 / 73 * w + 1) / w := by field_simp
  refine ⟨Nat.odd_iff.1 (carrierFreq_odd w), three_le_carrierFreq h3, by omega, hle, carrierFreq_eq_width_iff h3, ?_, ?_,
    ?_, ?_⟩
  · rw [le_div_iff₀ hw]; linarith
  · exact (div_le_one hw).2 (mod_cast hle)
  · rw [below, div_lt_div_iff_of_pos_right hw]; linarith
  · rw [above, div_le_div_iff_of_pos_right hw]; linarith

/-! ### The tables over ℝ -/

/-- After `w` elements the carrier has turned by an odd number of half-turns, which is `-1` on the unit circle. -/
theorem sin_cos_carrierAngle_width {w : Nat} (hw : w ≠ 0) :
    Real.sin (carrierAngle realFormat w w) = 0 ∧ Real.cos (carrierAngle realFormat w w) = -1 := by
  have hangle : carrierAngle realFormat w w = carrierFreq w * Real.pi := by
    rw [carrierAngle_real, mul_div_cancel_right₀ _ (Nat.cast_ne_zero.2 hw)]
  rw [hangle, Real.cos_nat_mul_pi, (carrierFreq_odd w).neg_one_pow]
  exact ⟨Real.sin_nat_mul_pi _, rfl⟩

theorem carrierAngle_zero (w : Nat) : carrierAngle realFormat w 0 = 0 := by
  simp [carrierAngle_real]

/-- Settles O23: element `i` is the sine and the cosine of one angle, 0 at the start and an odd half-turn at `w`. -/
theorem carrierTablesAreSineAndCosine : Obligations.CarrierTablesAreSineAndCosine := by
  intro w i h3 hi
  have hangle : carrierAngle realFormat w i = carrierFreq w * i * Real.pi / w := by
    rw [carrierAngle_real, div_mul_eq_mul_div]
  refine ⟨Real.sin (carrierAngle realFormat w i), Real.cos (carrierAngle realFormat w i), ?_, ?_, by rw [hangle],
    by rw [hangle], Real.sin_sq_add_cos_sq _, ?_, ?_⟩
  · rw [cgenSin, bufGet_bufTabulate, if_pos hi]; rfl
  · rw [cgenCos, bufGet_bufTabulate, if_pos hi]; rfl
  · rintro rfl
    rw [carrierAngle_zero, Real.sin_zero, Real.cos_zero]
    exact ⟨rfl, rfl⟩
  · rintro rfl
    exact sin_cos_carrierAngle_width (by omega)

/-- Settles O24: the reads from `PHASE w` on stay inside the table. -/
theorem windowIsTheHalfThePhaseSelects : Obligations.WindowIsTheHalfThePhaseSelects := by
  intro name table phase w f htable
  refine ⟨_, cgenWindow_of_get htable, by simp, fun j hj => ?_⟩
  rw [List.getElem?_map, List.getElem?_range hj, Option.map_some]

end Sys2Proof.Machine

/-! PROOFS, the biquad filter over ℝ (41_biquad_filter.md rule R146): the difference equation, and the gains and the stability
of the two low-pass filters. -/

namespace Sys2Proof.Machine

/-! ### The difference equation -/

/-- The filter that meets input `n` of the sequence. -/
def filterAt {α : Type} (N : NumFormat α) (F : Biquad α) (xs : List α) (n : Nat) : Biquad α := (bqRun N F (xs.take n)).2

section
variable {α : Type} (N : NumFormat α) (F : Biquad α) {xs : List α} {n : Nat} {x : α}

theorem take_succ_of_getElem? (hx : xs[n]? = some x) : xs.take (n + 1) = xs.take n ++ [x] := by
  rw [List.take_add_one, hx, Option.toList_some]

/-- Output `n` and the next filter come from one BQ.PROCESS of input `n`. -/
theorem filterAt_succ (hx : xs[n]? = some x) : filterAt N F xs (n + 1) = (bqProcess N (filterAt N F xs n) x).2 := by
  rw [filterAt, take_succ_of_getElem? hx, bqRun_append]
  rfl

theorem bqRun_getElem? (hx : xs[n]? = some x) :
    (bqRun N F xs).1[n]? = some (bqProcess N (filterAt N F xs n) x).1 := by
  obtain ⟨hn, rfl⟩ := List.getElem?_eq_some_iff.1 hx
  have hlen : (bqRun N F (xs.take n)).1.length = n := by rw [bqRun_length, List.length_take]; omega
  conv_lhs => rw [← List.take_append_drop n xs, bqRun_append]
  rw [List.getElem?_append_right hlen.le, hlen, Nat.sub_self, List.drop_eq_getElem_cons hn]
  rfl

end

/-- The equations of rule R145 between the inputs, the outputs and the two state registers of a run over ℝ. -/
theorem bqRun_real_equations (F : Biquad ℝ) {xs : List ℝ} {n : Nat} (hn : n < xs.length) :
    (bqRun realFormat F xs).1.getD n 0 = F.a0 * xs.getD n 0 + (filterAt realFormat F xs n).z1 ∧
    (filterAt realFormat F xs (n + 1)).z1 =
      F.a1 * xs.getD n 0 + (filterAt realFormat F xs n).z2 - F.b1 * (bqRun realFormat F xs).1.getD n 0 ∧
    (filterAt realFormat F xs (n + 1)).z2 = F.a2 * xs.getD n 0 - F.b2 * (bqRun realFormat F xs).1.getD n 0 := by
  have hx : xs[n]? = some xs[n] := List.getElem?_eq_getElem hn
  obtain ⟨e0, e1, e2, e3, e4⟩ := bqRun_coefficients realFormat F (xs.take n)
  have hy := bqRun_getElem? realFormat F hx
  rw [filterAt_succ realFormat F hx, List.getD_eq_getElem?_getD, List.getD_eq_getElem?_getD, hy, hx]
  simp only [Option.getD_some, bqProcess, realFormat] at e0 e1 e2 e3 e4 ⊢
  simp only [filterAt, e0, e1, e2, e3, e4, mul_comm, and_self]

/-- Settles O26: output `n` by the equations of input `n`, and the registers it finds by those of the two inputs before, which
are 0 at the start. -/
theorem filterObeysTheDifferenceEquation : Obligations.FilterObeysTheDifferenceEquation := by
  intro F xs hz1 hz2 x y n hn
  have hstart : (filterAt realFormat F xs 0).z1 = 0 ∧ (filterAt realFormat F xs 0).z2 = 0 := ⟨hz1, hz2⟩
  have hx : ∀ k : ℕ, x k = xs.getD k 0 := fun k => by simp [x]
  have hy : ∀ k : ℕ, y k = (bqRun realFormat F xs).1.getD k 0 := fun k => by simp [y]
  have hx0 : ∀ k : ℤ, k < 0 → x k = 0 := fun k hk => if_neg (by omega)
  have hy0 : ∀ k : ℤ, k < 0 → y k = 0 := fun k hk => if_neg (by omega)
  obtain ⟨out, -, -⟩ := bqRun_real_equations F hn
  match n with
  | 0 =>
    rw [← hx, ← hy, hstart.1] at out
    simp only [Nat.cast_zero] at out ⊢
    rw [hx0 (0 - 1) (by omega), hx0 (0 - 2) (by omega), hy0 (0 - 1) (by omega), hy0 (0 - 2) (by omega)]
    linarith
  | 1 =>
    obtain ⟨-, z1, -⟩ := bqRun_real_equations F (xs := xs) (n := 0) (by omega)
    rw [← hx, ← hy] at out
    rw [← hx, ← hy, hstart.2] at z1
    simp only [Nat.cast_zero, Nat.cast_one, zero_add] at out z1 ⊢
    rw [show (1 : ℤ) - 1 = 0 from rfl, hx0 (1 - 2) (by omega), hy0 (1 - 2) (by omega)]
    linarith
  | n + 2 =>
    obtain ⟨-, z1, -⟩ := bqRun_real_equations F (xs := xs) (n := n + 1) (by omega)
    obtain ⟨-, -, z2⟩ := bqRun_real_equations F (xs := xs) (n := n) (by omega)
    rw [← hx, ← hy] at out z1 z2
    have h1 : ((n + 2 : ℕ) : ℤ) - 1 = (n + 1 : ℕ) := by omega
    have h2 : ((n + 2 : ℕ) : ℤ) - 2 = (n : ℕ) := by omega
    rw [h1, h2]
    linarith

/-! ### Gains and stability -/

/-- The coefficients over ℝ, from `k` and the divisor `d` of rule R141. -/
theorem bqInit_real (fc : ℝ) : ∃ k d : ℝ, k = bqPrewarp realFormat fc ∧ d = 1 + k / 0.7 + k * k ∧
    (bqInit realFormat fc).a0 = k * k / d ∧ (bqInit realFormat fc).a1 = 2 * (k * k / d) ∧
    (bqInit realFormat fc).a2 = k * k / d ∧ (bqInit realFormat fc).b1 = 2 * (k * k - 1) / d ∧
    (bqInit realFormat fc).b2 = (1 - k / 0.7 + k * k) / d := by
  refine ⟨_, _, rfl, rfl, ?_⟩
  norm_num [bqInit, bqCoefficients, qFactor, numOne, numTwo, realFormat, div_eq_mul_inv]

theorem cutoff_bounds {fc : ℝ} (h : fc = fcI realFormat ∨ fc = fcQ realFormat) : 0 < fc ∧ fc < 0.5 := by
  rcases h with rfl | rfl <;> norm_num [fcI, fcQ, realFormat]

/-- Settles O27: with `k > 0` the divisor is above 1, and each claim is an inequality between polynomials in `k` over it. -/
theorem filtersAreStableUnitGainLowPass : Obligations.FiltersAreStableUnitGainLowPass := by
  intro fc hfc F
  obtain ⟨h0, hhalf⟩ := cutoff_bounds hfc
  have hk := bqPrewarp_real_pos h0 hhalf
  have hd1 := one_lt_bqDenominator hk
  obtain ⟨k, d, rfl, hd, a0, a1, a2, b1, b2⟩ := bqInit_real fc
  set k := bqPrewarp realFormat fc
  rw [← hd] at hd1
  have hd0 : 0 < d := by linarith
  have hq : 0 < k / 0.7 := div_pos hk (by norm_num)
  have hkk : 0 < k * k := mul_pos hk hk
  simp only [F, a0, a1, a2, b1, b2]
  generalize k / 0.7 = r at hd hq
  refine ⟨trivial, trivial, ?_, by ring, ?_, ?_⟩
  · have hden : 1 + 2 * (k * k - 1) / d + (1 - r + k * k) / d = 4 * (k * k) / d := by
      field_simp
      linarith
    rw [hden]
    field_simp
    norm_num
  · rw [abs_div, abs_of_pos hd0, div_lt_one hd0, abs_lt]
    constructor <;> linarith
  · have hsum : 1 + (1 - r + k * k) / d = (d + (1 - r + k * k)) / d := by field_simp
    rw [hsum, abs_div, abs_of_pos hd0, div_lt_div_iff_of_pos_right hd0, abs_lt]
    constructor <;> linarith

end Sys2Proof.Machine

/-! PROOFS, a gray line over ℝ (43_modulator.md): its chroma is zero, and a filter at rest that is fed zeros stays at rest and
gives zeros. -/

namespace Sys2Proof.Machine

/-- Both state registers are 0. -/
def AtRest (F : Biquad ℝ) : Prop := F.z1 = 0 ∧ F.z2 = 0

theorem bqProcess_atRest {F : Biquad ℝ} (h : AtRest F) : bqProcess realFormat F 0 = (0, F) := by
  obtain ⟨h1, h2⟩ := h
  cases F
  simp_all [bqProcess, realFormat]

theorem bqRun_atRest {F : Biquad ℝ} (h : AtRest F) (n : Nat) :
    bqRun realFormat F (List.replicate n 0) = (List.replicate n 0, F) := by
  induction n with
  | zero => rfl
  | succ n ih => rw [List.replicate_succ, bqRun, bqProcess_atRest h, ih]

theorem numZero_real : numZero realFormat = 0 := by simp [numZero, realFormat]

theorem filterLine_atRest {F : Biquad ℝ} (h : AtRest F) {n : Nat} (hn : 3 ≤ n) :
    filterLine realFormat F (List.replicate n 0) = (List.replicate n 0, F) := by
  rw [filterLine_eq _ _ (by simpa using hn), numZero_real, List.replicate_append_replicate, bqRun_atRest h,
    List.drop_replicate, Nat.add_sub_cancel]

theorem carrierSum_zero {n : Nat} {sw cw : List ℝ} (hs : sw.length = n) (hc : cw.length = n) :
    carrierSum realFormat (List.replicate n 0) (List.replicate n 0) sw cw = List.replicate n 0 := by
  refine List.eq_replicate_iff.2 ⟨by simp [carrierSum, hs, hc], fun v hv => ?_⟩
  obtain ⟨i, hi, rfl⟩ := List.mem_iff_getElem.1 hv
  simp [carrierSum, realFormat]

/-- Settles O30: no chroma reaches the filters, so the line is its luma on a zero carrier. -/
theorem grayLineEncodesToItsLuma : Obligations.GrayLineEncodesToItsLuma := by
  intro fi fq sw cw vs hi1 hi2 hq1 hq2 h3 hs hc line
  have chroma : (vs.map fun v => (v, v, v)).map (ctChroma realFormat) = List.replicate vs.length (0, 0) :=
    List.eq_replicate_iff.2 ⟨by simp, by simp [ctChroma_real_gray]⟩
  have luma : (vs.map fun v => (v, v, v)).map (ctLuma realFormat) = vs := by
    simp [Function.comp_def, ctLuma_real_gray]
  have hline : line = encodeLine realFormat fi fq sw cw (vs.map fun v => (v, v, v)) := rfl
  simp only [encodeLine, chroma, luma, List.map_replicate, filterLine_atRest ⟨hi1, hi2⟩ h3,
    filterLine_atRest ⟨hq1, hq2⟩ h3, carrierSum_zero hs hc] at hline
  rw [hline]
  refine ⟨?_, rfl, rfl⟩
  exact List.ext_getElem (by simp) fun i _ _ => by simp [realFormat]

end Sys2Proof.Machine

/-! PROOFS, the canceller (45_harmonic_canceller.md): the write regions, the selection, and the one correction of each
position. -/

namespace Sys2Proof.Machine

/-! ### The write regions (rules R232, R239) -/

/-- A position lies in the write region of its own block and of no other. -/
theorem in_region_iff (p b : Nat) : (8 * b + blockLow b ≤ p ∧ p < 8 * b + 12) ↔ b = blockOf p := by
  unfold blockLow blockOf
  split <;> split <;> omega

theorem blockOf_lt_blockCount {w p : Nat} (hp : p < w) : blockOf p < blockCount w := by
  unfold blockOf blockCount
  split <;> split <;> omega

/-- Settles O38: the count by the blocks of the line, the cover and the disjointness by the block of a position. -/
theorem writeRegionsPartitionTheLine : Obligations.WriteRegionsPartitionTheLine := by
  intro w hw
  exact ⟨blockInLine_iff hw, fun p hp =>
    ⟨(blockInLine_iff hw _).2 (blockOf_lt_blockCount hp), fun b => in_region_iff p b⟩⟩

/-! ### The selection (rule R235) -/

theorem inBand_real_iff (e : Estimate ℝ) :
    (realFormat.le (bandLo realFormat) e.frequency && realFormat.lt e.frequency (bandHi realFormat)) = true ↔
      2 ≤ e.frequency ∧ e.frequency < 2.3 := by
  have lo : bandLo realFormat = 2 := by norm_num [bandLo, numTwo, realFormat]
  have hi : bandHi realFormat = 2.3 := by norm_num [bandHi, realFormat]
  rw [lo, hi, Bool.and_eq_true]
  simp [realFormat]

/-- Settles O40: the first component in the band, and the band over ℝ. -/
theorem selectionTakesTheFirstInBand : Obligations.SelectionTakesTheFirstInBand := by
  intro res e
  rw [hrcSelect, List.find?_eq_some_iff_append]
  simp only [inBand_real_iff, Bool.not_eq_true', ← Bool.not_eq_true]
  constructor
  · rintro ⟨⟨hlo, hhi⟩, before, after, hres, hbefore⟩
    exact ⟨before, after, hres, hlo, hhi, hbefore⟩
  · rintro ⟨before, after, hres, hlo, hhi, hbefore⟩
    exact ⟨⟨hlo, hhi⟩, before, after, hres, hbefore⟩

/-! ### One correction per position (rule R238) -/

/-- What the answer of its block makes of the value at a position `n` samples into the block. -/
def correctedBy {α : Type} (N : NumFormat α) (answer : List (Estimate α)) (n : Nat) (v : α) : α :=
  match hrcSelect N (answer.take 4) with
  | none => v
  | some e => N.sub v (hrcSinusoid N e n)

section
variable {α : Type} (N : NumFormat α)

theorem hrcBlock_getElem? (b : Nat) (answer : List (Estimate α)) (ls : List α) (p : Nat) :
    (hrcBlock N b answer ls)[p]? =
      if b = blockOf p then ls[p]?.map (correctedBy N answer (p - hop * b)) else ls[p]? := by
  have hregion : (hop * b + blockLow b ≤ p ∧ p < hop * b + 12) ↔ b = blockOf p := in_region_iff p b
  simp only [hrcBlock, hrcSubtract, kEst]
  cases hsel : hrcSelect N (answer.take 4) with
  | none =>
    have hid : correctedBy N answer (p - hop * b) = id := funext fun v => by simp only [correctedBy, hsel, id]
    rw [hid, Option.map_id, id, ite_self]
  | some e =>
    have hsub : correctedBy N answer (p - hop * b) = fun v => N.sub v (hrcSinusoid N e (p - hop * b)) :=
      funext fun v => by simp only [correctedBy, hsel]
    simp only [hsub, List.getElem?_mapIdx, hregion]
    split <;> simp

/-- The answers of blocks `b`, `b + 1`, ... correct the positions of these blocks, each once, and no other. -/
theorem hrcApply_getElem? (b : Nat) (answers : List (List (Estimate α))) (ls : List α) (p : Nat) :
    (hrcApply N b answers ls)[p]? =
      if b ≤ blockOf p ∧ blockOf p < b + answers.length then
        ls[p]?.map (correctedBy N (answers.getD (blockOf p - b) []) (p - hop * blockOf p))
      else ls[p]? := by
  induction answers generalizing b ls with
  | nil => rw [hrcApply, if_neg (by rw [List.length_nil]; omega)]
  | cons a as ih =>
    rw [hrcApply, ih, hrcBlock_getElem?, List.length_cons]
    rcases Nat.lt_trichotomy b (blockOf p) with hlt | heq | hgt
    · obtain ⟨k, hk⟩ : ∃ k, blockOf p - b = k + 1 := ⟨blockOf p - b - 1, by omega⟩
      have hk' : blockOf p - (b + 1) = k := by omega
      rw [if_neg (by omega : ¬ b = blockOf p), hk, hk', List.getD_cons_succ]
      exact if_congr (by omega) rfl rfl
    · rw [if_neg (by omega), if_pos heq, if_pos (by omega), heq, Nat.sub_self, List.getD_cons_zero]
    · rw [if_neg (by omega), if_neg (by omega), if_neg (by omega)]

/-- With an answer for each block of the line, every position takes the correction of its own block. -/
theorem hrcApply_line_getElem? {w p : Nat} (hp : p < w) {answers : List (List (Estimate α))}
    (ha : blockCount w ≤ answers.length) (ls : List α) :
    (hrcApply N 0 (answers.take (blockCount w)) ls)[p]? =
      ls[p]?.map (correctedBy N (answers.getD (blockOf p) []) (p - hop * blockOf p)) := by
  have hb := blockOf_lt_blockCount hp
  rw [hrcApply_getElem?, if_pos (by rw [List.length_take]; omega), Nat.sub_zero, List.getD_eq_getElem?_getD,
    List.getElem?_take_of_lt hb, List.getD_eq_getElem?_getD]

/-- A canceller with enough answers finishes with the line corrected by them and the queries of all blocks sent. -/
theorem hrcCancel_done {w : Nat} (hw : 1 ≤ w) (ls xs : List α) {answers : List (List (Estimate α))}
    (ha : blockCount w ≤ answers.length) :
    hrcCancel N w ls xs answers =
      .done (hrcApply N 0 (answers.take (blockCount w)) ls) (answers.drop (blockCount w))
        ((List.range (blockCount w)).map (hrcQuery N xs)) := by
  have hcount := blockCount_le hw
  rw [hrcCancel, hrcLoop_done N hw xs (Nat.zero_le _) (by omega) (by omega), Nat.sub_zero, List.nil_append,
    List.range_eq_range']

end

/-- Settles O39: the run ends with all answers applied, and the regions give each position one of them. -/
theorem cancellerCorrectsEachPositionOnce : Obligations.CancellerCorrectsEachPositionOnce := by
  intro α N w ls xs answers hw hls hxs ha
  refine ⟨_, hrcCancel_done N hw ls xs ha, (hrcApply_length ..).trans hls, fun p v hv => ?_⟩
  have hp : p < w := hls ▸ (List.getElem?_eq_some_iff.1 hv).1
  rw [hrcApply_line_getElem? N hp ha, hv]
  rfl

end Sys2Proof.Machine

/-! PROOFS, the buffers (20_memory.md rule R61): a read after a write. -/

namespace Sys2Proof.Machine

theorem memRead_congr {α : Type} {size : Nat} {name : BufferName} {b b' : Buffer α} {k : Nat}
    (h : bufGet b' k = bufGet b k) : memRead size name b' k = memRead size name b k := by
  rw [memRead, memRead, h]

/-- Settles O44: a write inside the buffer is one element put in it; both operations test the index first. -/
theorem readAfterWrite : Obligations.ReadAfterWrite := by
  intro α size name b i v
  refine ⟨fun hi => ⟨_, memWrite_eq_ok.2 ⟨hi, rfl⟩, ?_, fun k hk => memRead_congr ?_⟩, fun hi => ⟨?_, ?_⟩⟩
  · exact memRead_eq_ok.2 ⟨hi, by rw [bufGet_bufPut, if_pos rfl]⟩
  · rw [bufGet_bufPut, if_neg hk]
  · exact if_neg (by omega)
  · exact memRead_eq_error.2 (.inl ⟨hi, rfl⟩)

end Sys2Proof.Machine

/-! PROOFS, CREATE and DESTROY (46_context_commands.md) and the error of a command (60_exceptions.md). -/

namespace Sys2Proof.Machine

/-- Settles O14: the checks of CREATE in their order, one after the other. -/
theorem createErrorsInOrder : Obligations.CreateErrorsInOrder := by
  intro P width h s hv
  have hmax := (widthMax_bounds P).2
  rw [createWith_no_context P width h hv]
  refine ⟨rfl, fun hw => if_pos hw, fun hw => ?_, fun hstore hlimit => ?_⟩
  · rw [if_neg (by simp only [widthLimit]; omega), if_pos hw]
  · rw [if_neg (by simp only [widthLimit]; omega), if_neg (by have := (widthMax_bounds P).1; omega), if_pos hstore]
    rfl

/-- Settles O15: a command that answers a state has raised an error, which writes `STATUS` only, or has set `STATUS` to 0, or is a
DECODE that waits. -/
theorem errorLeavesEverythingButStatus : Obligations.ErrorLeavesEverythingButStatus := by
  intro c s t hidle h hdone hstatus
  rcases issueCommand_eq_next h with ⟨i, -, hexec⟩ | rfl
  · rw [exec_eq] at hexec
    rcases execWith_eq_next hexec with ⟨e, rfl⟩ | ⟨_, _, -, -, -, -, -, rfl⟩ | ⟨-, -, -, ht⟩ | ⟨-, -, hf, ht⟩ | ⟨-, -, rfl⟩
    · rfl
    · exact absurd rfl hstatus
    · obtain ⟨us, vs, hline, -⟩ := encodeContext_completed hidle ht
      exact absurd hline.status hstatus
    · cases decodeContext_outcome (fun _ => hidle) hf ht with
      | finished answers queries sw cw ls xs x _ _ _ _ _ _ hresult => exact absurd (hresult ▸ rfl) hstatus
      | waits queries x d _ _ _ hresult => exact absurd (hresult ▸ hdone) nofun
    · exact absurd rfl hstatus
  · rfl

theorem execWith_create_builds {P : Params Number} {width : Nat} (h : BitVec 1) {s : State} (hv : s.ctxValid = 0)
    (h3 : 3 ≤ width) (hm : width ≤ P.widthMax) (hf : createFinite P.num width = true) :
    execWith P (.create width h) s = .next (createContext P width h s) := createWith_builds P h hv h3 hm hf

/-- Settles O16: past the checks CREATE writes the context, whose tables and histories are tabulated. -/
theorem createBuildsTheContext : Obligations.CreateBuildsTheContext := by
  intro P width h s hv h3 hm hf
  have hbuilds := execWith_create_builds h hv h3 hm hf
  refine ⟨_, hbuilds, ?_, rfl, lineWidth_createContext P hm h s, ?_, rfl, rfl⟩
  · rintro rfl
    rw [exec_eq]
    exact hbuilds
  · intro N angle i
    exact ⟨bufGet_bufTabulate _ _ i, bufGet_bufTabulate _ _ i, bufGet_bufTabulate _ _ i, bufGet_bufTabulate _ _ i⟩

/-- Settles O18: the fields that `s` and the new state may differ in are those DESTROY writes. -/
theorem destroyEndsTheContext : Obligations.DestroyEndsTheContext := by
  intro s hv
  exact ⟨_, (exec_eq .destroy s).trans (execDestroy_context hv), rfl, rfl, rfl⟩

/-- Settles O19: CREATE writes every register of the context, and DESTROY has emptied `CB`, the one buffer CREATE leaves. -/
theorem createAfterDestroyIsFresh : Obligations.CreateAfterDestroyIsFresh := by
  intro P s width h hv h3 hm hf
  exact ⟨_, _, _, execDestroy_context hv, execWith_create_builds h rfl h3 hm hf, execWith_create_builds h rfl h3 hm hf, rfl⟩

end Sys2Proof.Machine

/-! PROOFS, what a completed line command computes, element by element: ENCODE (43_modulator.md) and DECODE
(44_demodulator.md, 45_harmonic_canceller.md). -/

namespace Sys2Proof.Machine

/-! ### Lines as tabulated functions -/

section
variable {α : Type} (N : NumFormat α) {w : Nat}

theorem zipWith_map_range {β γ δ : Type} (g : β → γ → δ) (w : Nat) (a : Nat → β) (b : Nat → γ) :
    List.zipWith g ((List.range w).map a) ((List.range w).map b) = (List.range w).map fun i => g (a i) (b i) := by
  rw [List.zipWith_map, List.zipWith_self]

theorem map_range_getElem? {β : Type} (g : Nat → β) {i : Nat} (hi : i < w) : ((List.range w).map g)[i]? = some (g i) := by
  rw [List.getElem?_map, List.getElem?_range hi, Option.map_some]

/-- A buffer after a whole line is put in it from element 0 on. -/
theorem bufGet_putLine {b : Buffer α} {vs : List α} {g : Nat → α} (hlen : vs.length = w)
    (h : ∀ i, i < w → vs[i]? = some (g i)) (i : Nat) :
    bufGet (bufPutAll b 0 vs) i = if i < w then some (g i) else bufGet b i := by
  rw [bufGet_bufPutAll]
  split
  · rw [if_pos (by omega), Nat.sub_zero, h i (by omega)]
  · rw [if_neg (by omega)]

theorem combLuma_line (w : Nat) (x pl : Nat → α) :
    combLuma N ((List.range w).map x) ((List.range w).map pl) =
      (List.range w).map fun i => N.div (N.add (x i) (pl i)) (N.decimal 2 0) := zipWith_map_range _ w x pl

theorem combChroma_line (w : Nat) (x pc : Nat → α) :
    combChroma N ((List.range w).map x) ((List.range w).map pc) =
      (List.range w).map fun i => N.div (N.sub (x i) (pc i)) (N.decimal 2 0) := zipWith_map_range _ w x pc

/-- Two filtered lines combined element by element. -/
theorem zipWith_filterLine_getElem? {γ : Type} (g : α → α → γ) (F G : Biquad α) (h3 : 3 ≤ w) (a b : Nat → α) {i : Nat}
    (hi : i < w) :
    (List.zipWith g (filterLine N F ((List.range w).map a)).1 (filterLine N G ((List.range w).map b)).1)[i]? =
      some (g (lineOutput N F w a i) (lineOutput N G w b i)) := by
  rw [List.getElem?_zipWith, filterLine_getElem? N F h3 a hi, filterLine_getElem? N G h3 b hi]

theorem encodeLine_out_getElem? (fi fq : Biquad α) (h3 : 3 ≤ w) (sn cs : Nat → α) (pixel : Nat → α × α × α) {j : Nat}
    (hj : j < w) :
    (encodeLine N fi fq ((List.range w).map sn) ((List.range w).map cs) ((List.range w).map pixel)).out[j]? =
      some (N.add
        (N.add (N.mul (lineOutput N fi w (fun i => (ctChroma N (pixel i)).1) j) (sn j))
          (N.mul (lineOutput N fq w (fun i => (ctChroma N (pixel i)).2) j) (cs j)))
        (ctLuma N (pixel j))) := by
  simp only [encodeLine, carrierSum, List.map_map, List.getElem?_zipWith, map_range_getElem? _ hj]
  rw [filterLine_getElem? N fi h3 _ hj, filterLine_getElem? N fq h3 _ hj]
  rfl

theorem decodeLine_chroma_getElem? (fi fq : Biquad α) (h3 : 3 ≤ w) (o : Nat) (sn cs xs : Nat → α) (ls : List α) {i : Nat}
    (hi : i < w) :
    (decodeLine N fi fq ((List.range w).map fun j => sn (o + j)) ((List.range w).map fun j => cs (o + j)) ls
      ((List.range w).map xs)).chroma[i]? = some (demodulatedAt N fi fq w o xs sn cs i) := by
  simp only [decodeLine, zipWith_map_range]
  exact zipWith_filterLine_getElem? N _ fi fq h3 _ _ hi

theorem decodeLine_pixels_getElem? (fi fq : Biquad α) (h3 : 3 ≤ w) (o : Nat) (sn cs xs ls : Nat → α) {i : Nat}
    (hi : i < w) :
    (decodeLine N fi fq ((List.range w).map fun j => sn (o + j)) ((List.range w).map fun j => cs (o + j))
      ((List.range w).map ls) ((List.range w).map xs)).pixels[i]? =
      some (ctToRgb N (demodulatedAt N fi fq w o xs sn cs i) (ls i)) := by
  have hchroma := decodeLine_chroma_getElem? N fi fq h3 o sn cs xs ((List.range w).map ls) hi
  simp only [decodeLine] at hchroma ⊢
  rw [List.getElem?_zipWith, hchroma, map_range_getElem? _ hi]

end

/-! ### ENCODE -/

variable {P : Params Number} {s t : State}

theorem execWith_encode_completes (hv : s.ctxValid = 1) (hf : encodeFinite P s = true) (h : encodeContext P s = .ok t) :
    execWith P .encode s = .next t ∧ (P = Config.params → exec .encode s = .next t) := by
  have hnext : execWith P .encode s = .next t := (encodeWith_context P hv).trans (requireFinite_eq_next.2 ⟨hf, h⟩)
  exact ⟨hnext, fun hP => by rw [exec_eq, ← hP]; exact hnext⟩

theorem execWith_decode_completes (hv : s.ctxValid = 1) (hf : decodeFinite P s = true) (h : decodeContext P s = .ok t) :
    execWith P .decode s = .next t ∧ (P = Config.params → exec .decode s = .next t) := by
  have hnext : execWith P .decode s = .next t := (decodeWith_context P hv).trans (requireFinite_eq_next.2 ⟨hf, h⟩)
  exact ⟨hnext, fun hP => by rw [exec_eq, ← hP]; exact hnext⟩

/-- Settles O29: the reads succeed, and each buffer then holds the line that was put in it. -/
theorem encodeComputesTheCompositeLine : Obligations.EncodeComputesTheCompositeLine := by
  intro P s w sn cs x h hf N pixel o
  have h3 := h.width_low
  have hcap := h.capacity
  obtain rfl := h.width
  have hpix : readPixels P s = .ok ((List.range (lineWidth s)).map pixel) := readPixels_of_get hcap h.input
  have hcontext := encodeContext_of_reads h.windows hpix h3 (by omega)
  obtain ⟨hnext, hexec⟩ := execWith_encode_completes h.valid hf hcontext
  refine ⟨_, hnext, hexec, ?_, ?_, ?_⟩
  · rw [togglePhase_eq_not]
    simp only [encodeLine, List.map_map]
    rw [filterLine_stream N s.fi h3, filterLine_stream N s.fq h3]
    rfl
  · refine bufGet_putLine (by simp [encodeLine]) fun i hi => ?_
    simp only [encodeLine, List.map_map]
    exact map_range_getElem? _ hi
  · refine bufGet_putLine (encodeLine_out_length N s.fi s.fq h3 (by simp) (by simp) (by simp)) fun j hj => ?_
    exact encodeLine_out_getElem? N s.fi s.fq h3 (fun j => sn (o + j)) (fun j => cs (o + j)) pixel hj

/-! ### The end of a DECODE -/

theorem bufGet_putPixels {b : Buffer Number} {l : List (Number × Number × Number)} {i : Nat}
    {p : Number × Number × Number} (hp : l[i]? = some p) :
    bufGet (bufPutAll b 0 (interleave l)) (3 * i) = some p.1 ∧
      bufGet (bufPutAll b 0 (interleave l)) (3 * i + 1) = some p.2.1 ∧
      bufGet (bufPutAll b 0 (interleave l)) (3 * i + 2) = some p.2.2 := by
  have hi : i < l.length := (List.getElem?_eq_some_iff.1 hp).1
  obtain ⟨hr, hg, hb⟩ := interleave_get l i
  rw [hp] at hr hg hb
  have hlen := interleave_length l
  refine ⟨?_, ?_, ?_⟩ <;> rw [bufGet_bufPutAll, if_pos (by omega), Nat.sub_zero]
  · exact hr
  · exact hg
  · exact hb

/-- What the end of a DECODE writes, when its lines are the functions `x`, `ls` and `xs` tabulated. -/
theorem decodedState_decodedFrom (h3 : 3 ≤ lineWidth s) {x ls xs sn cs : Nat → Number} {sw cw : List Number}
    (hsw : sw = (List.range (lineWidth s)).map fun j => sn (s.phase.toNat * lineWidth s + j))
    (hcw : cw = (List.range (lineWidth s)).map fun j => cs (s.phase.toNat * lineWidth s + j)) :
    DecodedFrom P.num s
      (decodedState P s sw cw ((List.range (lineWidth s)).map ls) ((List.range (lineWidth s)).map xs)
        ((List.range (lineWidth s)).map x))
      (lineWidth s) x ls xs sn cs := by
  have hchroma := decodeLine_chroma_length P.num s.fi s.fq h3 (sw := sw) (cw := cw)
    (ls := (List.range (lineWidth s)).map ls) (xs := (List.range (lineWidth s)).map xs) (by simp [hsw]) (by simp [hcw])
    (by simp)
  have hlen := decodeLine_pixels_length P.num s.fi s.fq h3 (sw := sw) (cw := cw)
    (ls := (List.range (lineWidth s)).map ls) (xs := (List.range (lineWidth s)).map xs) (by simp [hsw]) (by simp [hcw])
    (by simp) (by simp)
  subst hsw hcw
  have hpixel : ∀ i, i < lineWidth s → _ := fun i hi => bufGet_putPixels (b := s.lineOut)
    (decodeLine_pixels_getElem? P.num s.fi s.fq h3 (s.phase.toNat * lineWidth s) sn cs xs ls hi)
  exact
    { fi := by
        simp only [decodedState, decodeLine, zipWith_map_range]
        exact filterLine_stream P.num s.fi h3 _
      fq := by
        simp only [decodedState, decodeLine, zipWith_map_range]
        exact filterLine_stream P.num s.fq h3 _
      cb := bufGet_putLine hchroma fun i hi => decodeLine_chroma_getElem? P.num s.fi s.fq h3 _ sn cs xs _ hi
      red := fun i hi => (hpixel i hi).1
      green := fun i hi => (hpixel i hi).2.1
      blue := fun i hi => (hpixel i hi).2.2
      beyond := fun k hk => by
        simp only [decodedState]
        rw [bufGet_bufPutAll, interleave_length, hlen, if_neg (by omega)]
      pl := bufGet_putLine (by simp) fun i hi => map_range_getElem? x hi
      pc := bufGet_putLine (by simp) fun i hi => map_range_getElem? x hi }

/-- The estimator's fields are no part of what the end of a DECODE writes. -/
theorem DecodedFrom.of_estimator {N : NumFormat Number} {w : Nat} {x ls xs sn cs : Nat → Number}
    {answers : List (List (Estimate Number))} {queries : List (Query Number)} {wait : Option Waiting}
    (h : DecodedFrom N { s with estAnswers := answers, estQueries := queries, waiting := wait } t w x ls xs sn cs) :
    DecodedFrom N s t w x ls xs sn cs := { h with }

theorem LineReady.samples {w : Nat} {sn cs x : Nat → Number} (h : LineReady P s w w sn cs x) :
    readSamples P s = .ok ((List.range w).map x) := by
  have hcap := h.capacity
  obtain rfl := h.width
  exact readSamples_of_get (by omega) h.input

/-- The end of a DECODE on a ready line. -/
theorem LineReady.decodeFinish {w : Nat} {sn cs x : Nat → Number} (h : LineReady P s w w sn cs x)
    (ls xs : Nat → Number) :
    ∃ sw cw, decodeFinish P s ((List.range w).map ls) ((List.range w).map xs) =
        .ok (decodedState P s sw cw ((List.range w).map ls) ((List.range w).map xs) ((List.range w).map x)) ∧
      DecodedFrom P.num s
        (decodedState P s sw cw ((List.range w).map ls) ((List.range w).map xs) ((List.range w).map x)) w x ls xs sn cs := by
  have hwin := h.windows
  have hx := h.samples
  have hcap := h.capacity
  have h3 := h.width_low
  obtain rfl := h.width
  exact ⟨_, _, decodeFinish_of_reads hwin hx h3 hcap (by simp) (by simp), decodedState_decodedFrom h3 rfl rfl⟩

/-- Settles O32: the plain mode is the comb and the end of a DECODE. -/
theorem plainDecodeComputesTheRecoveredLine : Obligations.PlainDecodeComputesTheRecoveredLine := by
  intro P s w sn cs x pl pc h hm hhist hf N
  have hx := h.samples
  obtain ⟨sw, cw, hfinish, hfrom⟩ := h.decodeFinish (fun i => N.div (N.add (x i) (pl i)) (N.decimal 2 0))
    (fun i => N.div (N.sub (x i) (pc i)) (N.decimal 2 0))
  obtain rfl := h.width
  have hpl := readHistory_of_get (name := .pl) (s := s) fun i hi => (hhist i hi).1
  have hpc := readHistory_of_get (name := .pc) (s := s) fun i hi => (hhist i hi).2
  rw [← combLuma_line, ← combChroma_line, ← decodeContext_plain hm hx hpc hpl] at hfinish
  obtain ⟨hnext, hexec⟩ := execWith_decode_completes h.valid hf hfinish
  exact ⟨_, hnext, hexec, by rw [← togglePhase_eq_not]; rfl, by rw [combLuma_line, combChroma_line]; exact hfrom⟩

/-! ### DECODE in harmonic mode -/

theorem hrcQuery_line (N : NumFormat Number) (w : Nat) (xs : Nat → Number) :
    hrcQuery N ((List.range w).map xs) = queryOf N w xs := by
  funext b
  have hsample : ∀ n, ((List.range w).map xs).getD (hop * b + n) (numZero N) =
      if 8 * b + n < w then xs (8 * b + n) else N.decimal 0 0 := by
    intro n
    rw [List.getD_eq_getElem?_getD]
    split
    · rename_i hn
      rw [map_range_getElem? xs (show hop * b + n < w from hn)]
      rfl
    · rename_i hn
      rw [List.getElem?_eq_none (by simpa using show w ≤ hop * b + n from Nat.not_lt.1 hn)]
      rfl
  simp only [hrcQuery, hrcWindow, queryOf, hsample]
  rfl

theorem correctedLuma_eq (N : NumFormat Number) (answer : Nat → List (Estimate Number)) (x : Nat → Number) (p : Nat) :
    correctedLuma N answer x p = correctedBy N (answer (blockOf p)) (p - hop * blockOf p) (x p) := by
  unfold correctedLuma correctedBy
  cases hrcSelect N ((answer (blockOf p)).take 4) <;> rfl

/-- The luma line that the canceller leaves, when it has an answer for each block. -/
theorem hrcApply_line (N : NumFormat Number) {w : Nat} {answers : List (List (Estimate Number))}
    (ha : blockCount w ≤ answers.length) (x : Nat → Number) :
    hrcApply N 0 (answers.take (blockCount w)) ((List.range w).map x) =
      (List.range w).map (correctedLuma N (fun b => answers.getD b []) x) := by
  have hlen := hrcApply_length N 0 (answers.take (blockCount w)) ((List.range w).map x)
  apply List.ext_getElem?
  intro p
  rcases Nat.lt_or_ge p w with hp | hp
  · rw [hrcApply_line_getElem? N hp ha, map_range_getElem? _ hp, map_range_getElem? _ hp,
      correctedLuma_eq]
    rfl
  · rw [List.getElem?_eq_none (by simpa [hlen] using hp), List.getElem?_eq_none (by simpa using hp)]

theorem LineReady.with_estimator {w n : Nat} {sn cs x : Nat → Number} (h : LineReady P s w n sn cs x)
    (answers : List (List (Estimate Number))) (queries : List (Query Number)) (wait : Option Waiting) :
    LineReady P { s with estAnswers := answers, estQueries := queries, waiting := wait } w n sn cs x := { h with }

/-- DECODE in harmonic mode on a ready line is the canceller on the line and its comb-chroma. -/
theorem LineReady.decodeContext_harmonic {w : Nat} {sn cs x pc : Nat → Number} (h : LineReady P s w w sn cs x)
    (hm : s.hmode = 1) (hpc : ∀ i, i < w → bufGet s.pc i = some (pc i)) :
    decodeContext P s =
      decodeAfterCancel P s ((List.range w).map fun i => P.num.div (P.num.sub (x i) (pc i)) (P.num.decimal 2 0))
        (hrcCancel P.num w ((List.range w).map x)
          ((List.range w).map fun i => P.num.div (P.num.sub (x i) (pc i)) (P.num.decimal 2 0)) s.estAnswers) := by
  have hx := h.samples
  obtain rfl := h.width
  rw [Machine.decodeContext_harmonic (by rw [hm]; decide) hx (readHistory_of_get hpc), combChroma_line]

/-- Settles O33: the canceller has an answer for each block, and the end of a DECODE takes the line it leaves. -/
theorem harmonicDecodeComputesTheCorrectedLine : Obligations.HarmonicDecodeComputesTheCorrectedLine := by
  intro P s w sn cs x pc answers rest h hm hidle hpc hanswers hlen hf N xs
  have h3 := h.width_low
  have hready := h.with_estimator rest (s.estQueries ++ (List.range (blockCount w)).map (queryOf N w xs)) none
  obtain ⟨sw, cw, hfinish, hfrom⟩ := hready.decodeFinish (correctedLuma N (fun b => answers.getD b []) x) xs
  have hcancel : hrcCancel N w ((List.range w).map x) ((List.range w).map xs) s.estAnswers =
      .done ((List.range w).map (correctedLuma N (fun b => answers.getD b []) x)) rest
        ((List.range (blockCount w)).map (queryOf N w xs)) := by
    rw [hanswers, hrcCancel_done N (by omega) _ _ (by rw [List.length_append]; omega), ← hlen, List.take_left,
      List.drop_left, hlen, hrcQuery_line, ← hrcApply_line N hlen.ge, ← hlen, List.take_length]
  have hcontext := h.decodeContext_harmonic hm hpc
  rw [hcancel] at hcontext
  obtain ⟨hnext, hexec⟩ := execWith_decode_completes h.valid hf (hcontext.trans hfinish)
  exact ⟨_, hnext, hexec, by rw [← togglePhase_eq_not, hidle]; rfl, hfrom.of_estimator⟩

/-- Settles O34: the canceller waits at the block after the last one answered. -/
theorem harmonicDecodeWaitsForTheNextAnswer : Obligations.HarmonicDecodeWaitsForTheNextAnswer := by
  intro P s w sn cs x pc h hm hpc hfew hf N xs
  have h3 := h.width_low
  have hcount := blockCount_le (w := w) (by omega)
  have hcontext := h.decodeContext_harmonic hm hpc
  rw [hrcCancel, hrcLoop_waiting P.num (by omega) _ (by omega) (by omega), hrcQuery_line, Nat.zero_add, List.nil_append,
    ← List.range_eq_range'] at hcontext
  obtain ⟨hnext, hexec⟩ := execWith_decode_completes h.valid hf hcontext
  exact ⟨_, _, hnext, hexec, rfl, rfl, rfl⟩

end Sys2Proof.Machine

/-! PROOFS, answers that come late (10_state.md rule R35, 20_memory.md rule R73): a run of the canceller that stops for an answer
goes on, when it gets one, as if it had never stopped. -/

namespace Sys2Proof.Machine

/-- A result of the canceller whose first queries were sent before. -/
def CancelResult.afterQueries {α : Type} (earlier : List (Query α)) : CancelResult α → CancelResult α
  | .done ls answers sent => .done ls answers (earlier ++ sent)
  | .waiting b ls sent => .waiting b ls (earlier ++ sent)

section
variable {α : Type} (N : NumFormat α) {w : Nat} {xs : List α}

/-- A run only adds to the queries sent before it. -/
theorem hrcLoop_afterQueries (fuel b : Nat) (ls : List α) (answers : List (List (Estimate α)))
    (earlier sent : List (Query α)) :
    hrcLoop N w xs fuel b ls answers (earlier ++ sent) = (hrcLoop N w xs fuel b ls answers sent).afterQueries earlier := by
  induction fuel generalizing b ls answers sent with
  | zero => rfl
  | succ fuel ih =>
    rw [hrcLoop_succ, hrcLoop_succ]
    split
    · cases answers with
      | nil => simp only [CancelResult.afterQueries, List.append_assoc]
      | cons a as => simp only [List.append_assoc]; exact ih ..
    · rfl

theorem not_blockInLine_of_le {b : Nat} (hb : w ≤ b) : ¬ blockInLine w b = true := by
  rw [blockInLine, decide_eq_true_iff, hop]
  omega

/-- The bound on the blocks plays no part once it lets every block of the line through. -/
theorem hrcLoop_fuel_irrelevant {f g b : Nat} (hf : w ≤ b + f) (hg : w ≤ b + g) (ls : List α)
    (answers : List (List (Estimate α))) (sent : List (Query α)) :
    hrcLoop N w xs f b ls answers sent = hrcLoop N w xs g b ls answers sent := by
  induction f generalizing g b ls answers sent with
  | zero =>
    cases g with
    | zero => rfl
    | succ g => rw [hrcLoop_succ, if_neg (not_blockInLine_of_le (by omega))]; rfl
  | succ f ih =>
    cases g with
    | zero => rw [hrcLoop_succ, if_neg (not_blockInLine_of_le (by omega))]; rfl
    | succ g =>
      rw [hrcLoop_succ, hrcLoop_succ]
      split
      · cases answers with
        | nil => rfl
        | cons a as => exact ih (by omega) (by omega) ..
      · rfl

/-- A run that waits at block `b'` with the answers it had goes on from there with the answer it is given next. -/
theorem hrcLoop_append_of_waiting {fuel b b' : Nat} {ls ls' : List α} {answers : List (List (Estimate α))}
    {sent sent' : List (Query α)} (h : hrcLoop N w xs fuel b ls answers sent = .waiting b' ls' sent')
    (a : List (Estimate α)) (as : List (List (Estimate α))) :
    ∃ fuel', fuel' + b' + 1 = fuel + b ∧
      hrcLoop N w xs fuel b ls (answers ++ a :: as) sent =
        hrcLoop N w xs fuel' (b' + 1) (hrcBlock N b' a ls') as sent' := by
  induction fuel generalizing b ls answers sent with
  | zero => cases h
  | succ fuel ih =>
    rw [hrcLoop_succ] at h ⊢
    split at h
    · rename_i hb
      rw [if_pos hb]
      cases answers with
      | nil => cases h; exact ⟨fuel, by omega, rfl⟩
      | cons c cs =>
        obtain ⟨fuel', hfuel, hrun⟩ := ih h
        exact ⟨fuel', by omega, hrun⟩
    · cases h

/-- HRC.CANCEL with an answer more than it waited for is the run that starts over with that answer at the block it waited at. -/
theorem hrcCancel_append_of_waiting {b : Nat} {ls ls' : List α} {early : List (List (Estimate α))} {sent : List (Query α)}
    (h : hrcCancel N w ls xs early = .waiting b ls' sent) (a : List (Estimate α)) (as : List (List (Estimate α))) :
    hrcCancel N w ls xs (early ++ a :: as) =
      (hrcLoop N w xs (w + 1) (b + 1) (hrcBlock N b a ls') as []).afterQueries sent := by
  obtain ⟨fuel, hfuel, hrun⟩ := hrcLoop_append_of_waiting N h a as
  rw [hrcCancel, hrun, hrcLoop_fuel_irrelevant N (f := fuel) (g := w + 1) (by omega) (by omega), ← hrcLoop_afterQueries,
    List.append_nil]

end

/-! ### The DECODE around it -/

variable {P : Params Number} {s t : State}

/-- The state a DECODE waits in, and the canceller that waits. -/
theorem decodeContext_waits {d : Waiting} (hidle : s.waiting = none) (h : decodeContext P s = .ok t)
    (hd : t.waiting = some d) :
    ∃ x pc sent, s.hmode ≠ 0 ∧ readSamples P s = .ok x ∧ readHistory .pc s.pc s = .ok pc ∧ d.xs = combChroma P.num x pc ∧
      hrcCancel P.num (lineWidth s) x d.xs s.estAnswers = .waiting d.block d.ls sent ∧
      t = { s with estAnswers := [], estQueries := s.estQueries ++ sent, waiting := some d } := by
  obtain ⟨x, pc, hx, hpc, ⟨-, pl, -, hfinish⟩ | ⟨hm, hcancel⟩⟩ := decodeContext_eq_ok h
  · obtain ⟨us, vs, hline, -⟩ := decodeFinish_completed hidle hfinish
    exact absurd (hline.waiting.symm.trans hd) nofun
  · rcases decodeAfterCancel_eq_ok hcancel with ⟨ls, answers, sent, -, hfinish⟩ | ⟨b, ls, sent, hr, rfl⟩
    · obtain ⟨us, vs, hline, -⟩ := decodeFinish_completed rfl hfinish
      exact absurd (hline.waiting.symm.trans hd) nofun
    · cases hd
      exact ⟨x, pc, sent, hm, hx, hpc, rfl, hr, rfl⟩

/-- Queries that are on record already and queries that the canceller reports come to the same. -/
theorem decodeAfterCancel_afterQueries (xs : List Number) (r : CancelResult Number) (earlier : List (Query Number))
    (answers : List (List (Estimate Number))) (wait : Option Waiting) :
    decodeAfterCancel P s xs (r.afterQueries earlier) =
      decodeAfterCancel P { s with estAnswers := answers, estQueries := s.estQueries ++ earlier, waiting := wait } xs r := by
  cases r <;> simp only [CancelResult.afterQueries, decodeAfterCancel, List.append_assoc]

theorem cancelFinite_afterQueries (xs : List (Tracked Number)) (r : CancelResult (Tracked Number))
    (earlier : List (Query (Tracked Number))) (answers : List (List (Estimate Number))) (queries : List (Query Number))
    (wait : Option Waiting) :
    cancelFinite P s xs (r.afterQueries earlier) =
      cancelFinite P { s with estAnswers := answers, estQueries := queries, waiting := wait } xs r := by
  cases r <;> rfl

theorem decodeFinite_harmonic_eq {x pc : List Number} (hm : s.hmode ≠ 0) (hx : readSamples P s = .ok x)
    (hpc : readHistory .pc s.pc s = .ok pc) :
    decodeFinite P s =
      cancelFinite P s (combChroma (trackFormat P.num) (x.map (track P.num)) (pc.map (track P.num)))
        (hrcCancel (trackFormat P.num) (lineWidth s) (x.map (track P.num))
          (combChroma (trackFormat P.num) (x.map (track P.num)) (pc.map (track P.num)))
          (s.estAnswers.map (List.map (trackEstimate P.num)))) := by
  simp only [decodeFinite, hx, hpc, hm, if_false]

/-- A harmonic DECODE that waits with finite values: the tracked canceller waits at the same block, and its lines are what a
resumed DECODE reads. -/
theorem decodeFinite_waits {x pc : List Number} {d : Waiting} {sent : List (Query Number)} (hm : s.hmode ≠ 0)
    (hx : readSamples P s = .ok x) (hpc : readHistory .pc s.pc s = .ok pc) (hxs : d.xs = combChroma P.num x pc)
    (hr : hrcCancel P.num (lineWidth s) x d.xs s.estAnswers = .waiting d.block d.ls sent)
    (hf : decodeFinite P s = true) :
    combChroma (trackFormat P.num) (x.map (track P.num)) (pc.map (track P.num)) = d.xs.map (track P.num) ∧
      ∃ sent', hrcCancel (trackFormat P.num) (lineWidth s) (x.map (track P.num)) (d.xs.map (track P.num))
        (s.estAnswers.map (List.map (trackEstimate P.num))) = .waiting d.block (d.ls.map (track P.num)) sent' := by
  rw [decodeFinite_harmonic_eq hm hx hpc] at hf
  generalize hT : combChroma (trackFormat P.num) (x.map (track P.num)) (pc.map (track P.num)) = xs at hf
  have exs : values xs = d.xs := by rw [← hT, combChroma_values, values_track, values_track, hxs]
  have hsound : ∀ v ∈ xs, Sound P.num v := hT ▸ sound_of_mem_zipWith _ fun _ _ => trackResult_sound _ _ _
  have htracks := hrcLoop_tracks P.num (lineWidth s) (lineWidth s + 1) 0 xs (track_list_sound P.num x) s.estAnswers [] []
  rw [exs, values_track] at htracks
  rw [hrcCancel] at hr
  rw [hr] at htracks
  cases hrun : hrcLoop (trackFormat P.num) (lineWidth s) xs (lineWidth s + 1) 0 (x.map (track P.num))
      (s.estAnswers.map (List.map (trackEstimate P.num))) [] with
  | done => rw [hrun] at htracks; exact htracks.elim
  | waiting b l sent' =>
    rw [hrun] at htracks
    rw [hrcCancel, hrun] at hf
    obtain ⟨rfl, els, hls⟩ := htracks
    obtain ⟨fls, fxs⟩ := Bool.and_eq_true_iff.1 (show (listFinite l && listFinite xs) = true from hf)
    have txs : d.xs.map (track P.num) = xs := exs ▸ track_values P.num hsound fxs
    have tls : d.ls.map (track P.num) = l := els ▸ track_values P.num hls fls
    exact ⟨txs.symm, sent', by rw [txs, tls, hrcCancel, hrun]⟩

/-- Settles O35: the plain canceller and the tracked one both go on from where the early answers left them. -/
theorem lateAnswersGiveTheSameDecode : Obligations.LateAnswersGiveTheSameDecode := by
  intro P s t early late hidle hlate hreset hstep hwaits
  obtain ⟨d, hd⟩ := Option.isSome_iff_exists.1 hwaits
  obtain ⟨a, as, rfl⟩ := List.exists_cons_of_ne_nil hlate
  rcases execWith_eq_next hstep with ⟨e, rfl⟩ | ⟨_, _, hi, -⟩ | ⟨hi, -⟩ | ⟨-, hv, hf, ht⟩ | ⟨hi, -⟩
  · exact absurd (hidle.symm.trans hd) nofun
  · cases hi
  · cases hi
  · obtain ⟨x, pc, sent, hm, hx, hpc, hxs, hr, rfl⟩ := decodeContext_waits (s := { s with estAnswers := early }) hidle ht hd
    obtain ⟨htxs, sent', hrT⟩ := decodeFinite_waits hm hx hpc hxs hr hf
    have hlateStep : engineStep P _ = requireFinite _ _ := step_of_waiting_answer (s :=
      { s with estAnswers := a :: as, estQueries := s.estQueries ++ sent, waiting := some d }) rfl hreset rfl
    have honce : execWith P .decode { s with estAnswers := early ++ a :: as } = _ := decodeWith_context P hv
    refine hlateStep.trans (Eq.trans ?_ honce.symm)
    congr 1
    · have hfinite := decodeFinite_harmonic_eq (s := { s with estAnswers := early ++ a :: as }) hm hx hpc
      have hresult := hrcCancel_append_of_waiting (trackFormat P.num) hrT (a.map (trackEstimate P.num))
        (as.map (List.map (trackEstimate P.num)))
      rw [htxs, List.map_append, List.map_cons] at hfinite
      exact (hfinite.trans ((congrArg _ hresult).trans (cancelFinite_afterQueries _ _ _ _ _ _))).symm
    · have hcontext := decodeContext_harmonic (s := { s with estAnswers := early ++ a :: as }) hm hx hpc
      have hresult := hrcCancel_append_of_waiting P.num hr a as
      rw [← hxs] at hcontext
      exact (hcontext.trans ((congrArg _ hresult).trans (decodeAfterCancel_afterQueries _ _ _ _ _))).symm
  · cases hi

end Sys2Proof.Machine

/-! PROOFS, finite numbers (00_scope.md rule R10): the flag of a value covers every number that went into it, so a line that is
called finite had finite inputs; and where every number is finite every flag is set. -/

namespace Sys2Proof.Machine

/-! ### What went into a finite value -/

section
variable {α : Type} (N : NumFormat α)

/-- The state that BQ.PROCESS leaves has the input and both state registers in it. -/
theorem bqProcess_finite_inputs {F : Biquad (Tracked α)} {x : Tracked α}
    (h : biquadFinite (bqProcess (trackFormat N) F x).2 = true) : biquadFinite F = true ∧ x.finite = true := by
  simp only [biquadFinite, listFinite, bqProcess, trackFormat, trackResult, List.all_cons, List.all_nil,
    Bool.and_eq_true, Bool.and_true] at h ⊢
  tauto

theorem bqRun_finite_inputs {F : Biquad (Tracked α)} {xs : List (Tracked α)}
    (h : biquadFinite (bqRun (trackFormat N) F xs).2 = true) : biquadFinite F = true ∧ ∀ x ∈ xs, x.finite = true := by
  induction xs generalizing F with
  | nil => exact ⟨h, nofun⟩
  | cons x xs ih =>
    obtain ⟨hstep, hxs⟩ := ih h
    obtain ⟨hF, hx⟩ := bqProcess_finite_inputs N hstep
    exact ⟨hF, List.forall_mem_cons.2 ⟨hx, hxs⟩⟩

theorem filterLine_finite_inputs {F : Biquad (Tracked α)} {xs : List (Tracked α)}
    (h : biquadFinite (filterLine (trackFormat N) F xs).2 = true) : ∀ x ∈ xs, x.finite = true := by
  rw [filterLine_snd] at h
  exact fun x hx => (bqRun_finite_inputs N h).2 x (List.mem_append_left _ hx)

/-- All three components of a pixel go into its chroma. -/
theorem ctChroma_finite_inputs {p : Tracked α × Tracked α × Tracked α}
    (h : (ctChroma (trackFormat N) p).1.finite = true) :
    p.1.finite = true ∧ p.2.1.finite = true ∧ p.2.2.finite = true := by
  simp only [ctChroma, trackFormat, trackResult, Bool.and_eq_true] at h
  tauto

theorem encodeLine_finite_inputs {fi fq : Biquad (Tracked α)} {sw cw : List (Tracked α)} {pixels : List (α × α × α)}
    (h : encodedLineFinite (encodeLine (trackFormat N) fi fq sw cw (pixels.map (trackPixel N))) = true) :
    ∀ p ∈ pixels, N.finite p.1 = true ∧ N.finite p.2.1 = true ∧ N.finite p.2.2 = true := by
  intro p hp
  simp only [encodedLineFinite, Bool.and_eq_true] at h
  obtain ⟨⟨⟨⟨hchroma, -⟩, -⟩, -⟩, -⟩ := h
  refine ctChroma_finite_inputs N (p := trackPixel N p) (List.all_eq_true.1 hchroma _ ?_)
  exact List.mem_map_of_mem (List.mem_map_of_mem (List.mem_map_of_mem hp))

theorem zipWith_finite_left {f : Tracked α → Tracked α → Tracked α}
    (hf : ∀ x y, (f x y).finite = true → x.finite = true) {xs ys : List (Tracked α)} (hlen : xs.length ≤ ys.length)
    (h : ∀ v ∈ List.zipWith f xs ys, v.finite = true) : ∀ x ∈ xs, x.finite = true := by
  intro x hx
  obtain ⟨i, hi, rfl⟩ := List.mem_iff_getElem.1 hx
  have hz : i < (List.zipWith f xs ys).length := by rw [List.length_zipWith]; omega
  have hv := h _ (List.getElem_mem hz)
  rw [List.getElem_zipWith] at hv
  exact hf _ _ hv

theorem mul_finite_left (x y : Tracked α) (h : ((trackFormat N).mul x y).finite = true) : x.finite = true := by
  simp only [trackFormat, trackResult, Bool.and_eq_true] at h
  exact h.1.1

/-- All of the comb-chroma line goes through the filters. -/
theorem decodeLine_finite_inputs {fi fq : Biquad (Tracked α)} {sw cw ls xs : List (Tracked α)}
    (hlen : xs.length ≤ sw.length) (h : decodedLineFinite (decodeLine (trackFormat N) fi fq sw cw ls xs) = true) :
    ∀ x ∈ xs, x.finite = true := by
  simp only [decodedLineFinite, Bool.and_eq_true] at h
  obtain ⟨⟨⟨-, hfi⟩, -⟩, -⟩ := h
  exact zipWith_finite_left (mul_finite_left N) hlen (filterLine_finite_inputs N hfi)

theorem combChroma_finite_inputs {x pc : List α} (hlen : x.length ≤ pc.length)
    (h : ∀ v ∈ combChroma (trackFormat N) (x.map (track N)) (pc.map (track N)), v.finite = true) :
    numbersFinite N x := by
  have hleft : ∀ a b : Tracked α,
      ((trackFormat N).div ((trackFormat N).sub a b) (numTwo (trackFormat N))).finite = true → a.finite = true := by
    intro a b hab
    simp only [trackFormat, trackResult, Bool.and_eq_true] at hab
    tauto
  have hx := zipWith_finite_left hleft (by simpa using hlen) h
  exact fun v hv => hx (track N v) (List.mem_map_of_mem hv)

end

variable {P : Params Number} {s t : State}

theorem finishFinite_inputs {sw cw : List Number} (hwin : readWindows s = .ok (sw, cw)) {ls xs : List (Tracked Number)}
    (hxs : xs.length = lineWidth s) (h : finishFinite P s ls xs = true) : ∀ x ∈ xs, x.finite = true := by
  have hsw := cgenWindow_length (readWindows_eq_ok.1 hwin).1
  simp only [finishFinite, hwin] at h
  exact decodeLine_finite_inputs P.num (by simp [hxs, hsw]) h

theorem cancelFinite_inputs {sw cw : List Number} (hwin : readWindows s = .ok (sw, cw)) {xs : List (Tracked Number)}
    (hxs : xs.length = lineWidth s) {r : CancelResult (Tracked Number)} (h : cancelFinite P s xs r = true) :
    ∀ x ∈ xs, x.finite = true := by
  cases r with
  | done ls answers sent => exact finishFinite_inputs hwin hxs h
  | waiting b ls sent => exact List.all_eq_true.1 (Bool.and_eq_true_iff.1 h).2

/-- In both modes a DECODE called finite has read a finite line. -/
theorem decodeFinite_inputs {sw cw x pc : List Number} (hwin : readWindows s = .ok (sw, cw)) (hx : readSamples P s = .ok x)
    (hpc : readHistory .pc s.pc s = .ok pc) (hpl : s.hmode = 0 → ∃ pl, readHistory .pl s.pl s = .ok pl)
    (h : decodeFinite P s = true) : numbersFinite P.num x := by
  have hxl := readSamples_length hx
  have hpcl := readHistory_length hpc
  refine combChroma_finite_inputs P.num (pc := pc) (by omega) ?_
  have hlen : (combChroma (trackFormat P.num) (x.map (track P.num)) (pc.map (track P.num))).length = lineWidth s :=
    combChroma_length (by simpa using hxl) (by simpa using hpcl)
  by_cases hm : s.hmode = 0
  · obtain ⟨pl, hpl⟩ := hpl hm
    simp only [decodeFinite, hx, hpc, hpl, hm, if_true] at h
    exact finishFinite_inputs hwin hlen h
  · rw [decodeFinite_harmonic_eq hm hx hpc] at h
    exact cancelFinite_inputs hwin hlen h

/-! ### The statements -/

/-- What holds of the three elements of each pixel holds of each element of the line. -/
theorem forall_elements_of_pixels {q : Nat → Prop} {n : Nat}
    (h : ∀ i, i < n → q (3 * i) ∧ q (3 * i + 1) ∧ q (3 * i + 2)) (k : Nat) (hk : k < 3 * n) : q k := by
  obtain ⟨h0, h1, h2⟩ := h (k / 3) (by omega)
  rcases (by omega : k = 3 * (k / 3) ∨ k = 3 * (k / 3) + 1 ∨ k = 3 * (k / 3) + 2) with e | e | e <;> rw [e]
  · exact h0
  · exact h1
  · exact h2

/-- Settles O41: a line command called finite would have read a finite line. -/
theorem nonFiniteInputIsRefused : Obligations.NonFiniteInputIsRefused := by
  intro P s w k sn cs x pl pc hv hw h3 hmax htables hbad
  obtain rfl := hw
  have hcap := lineWidth_le_capacity hmax
  have hwin := readWindows_eq_ok.2 ⟨cgenWindow_of_get (name := .sin) (phase := s.phase) fun i hi => (htables i hi).1,
    cgenWindow_of_get (name := .cos) (phase := s.phase) fun i hi => (htables i hi).2⟩
  refine ⟨fun hk hin => ⟨?_, exec_eq .encode s⟩, fun hk hin => ⟨?_, exec_eq .decode s⟩⟩
  · have hf : encodeFinite P s = false := by
      rw [Bool.eq_false_iff]
      intro hf
      rw [encodeFinite, hwin, readPixels_of_get hcap hin] at hf
      have hline := forall_elements_of_pixels (q := fun i => P.num.finite (x i) = true) fun i hi =>
        encodeLine_finite_inputs P.num hf _ (List.mem_map_of_mem (List.mem_range.2 hi))
      exact absurd (hline k hk) (by rw [hbad]; decide)
    rw [encodeWith_context P hv, hf]; rfl
  · have hf : decodeFinite P s = false := by
      rw [Bool.eq_false_iff]
      intro hf
      have hline := decodeFinite_inputs hwin (readSamples_of_get (by omega) fun i hi => (hin i hi).1)
        (readHistory_of_get fun i hi => (hin i hi).2.2) (fun _ => ⟨_, readHistory_of_get fun i hi => (hin i hi).2.1⟩) hf
      exact absurd (hline (x k) (List.mem_map_of_mem (List.mem_range.2 hk))) (by rw [hbad]; decide)
    rw [decodeWith_context P hv, hf]; rfl

theorem readPixels_get {pixels : List (Number × Number × Number)} (h : readPixels P s = .ok pixels) {i : Nat}
    (hi : i < lineWidth s) : ∃ p ∈ pixels, bufGet s.lineIn (3 * i) = some p.1 ∧
      bufGet s.lineIn (3 * i + 1) = some p.2.1 ∧ bufGet s.lineIn (3 * i + 2) = some p.2.2 := by
  obtain ⟨hlen, hget⟩ := collect_eq_ok.1 h
  have hpixel := hget i (by omega)
  obtain ⟨⟨r, hr⟩, ⟨g, hg⟩, b, hb⟩ := readPixel_exists_ok.1 ⟨_, hpixel⟩
  refine ⟨pixels[i]'(by omega), List.getElem_mem _, ?_⟩
  rw [Nat.zero_add] at hr hg hb hpixel
  simp only [readPixel, hr, hg, hb, bind, Except.bind, Except.ok.injEq] at hpixel
  rw [← hpixel]
  exact ⟨(memRead_eq_ok.1 hr).2, (memRead_eq_ok.1 hg).2, (memRead_eq_ok.1 hb).2⟩

/-- The elements that a line put from element 0 on gives a buffer are values of the line. -/
theorem bufGet_putLine_of_forall {α : Type} {q : α → Prop} {b : Buffer α} {vs : List α} (h : ∀ v ∈ vs, q v) {k : Nat}
    (hk : k < vs.length) : ∃ v, bufGet (bufPutAll b 0 vs) k = some v ∧ q v := by
  refine ⟨vs[k], ?_, h _ (List.getElem_mem hk)⟩
  rw [bufGet_bufPutAll, if_pos (by omega), Nat.sub_zero, List.getElem?_eq_getElem hk]

/-- An ENCODE that completes. -/
theorem encodeContext_line_finite (hf : encodeFinite P s = true) (h : encodeContext P s = .ok t) :
    (∀ k, k < 3 * lineWidth s → ∃ v, bufGet s.lineIn k = some v ∧ P.num.finite v = true) ∧
    (∀ k, k < lineWidth s → ∃ c, bufGet t.cb k = some c ∧ P.num.finite c.1 = true ∧ P.num.finite c.2 = true) ∧
    (∀ k, k < lineWidth s → ∃ v, bufGet t.lineOut k = some v ∧ P.num.finite v = true) ∧
    registersFinite P.num t.fi ∧ registersFinite P.num t.fq := by
  obtain ⟨sw, cw, pixels, hwin, hpix, h3, -, rfl⟩ := encodeContext_eq_ok h
  obtain ⟨hsw, hcw⟩ := readWindows_eq_ok.1 hwin
  have hlen := readPixels_length hpix
  have hchroma := encodeLine_chroma_length P.num s.fi s.fq sw cw pixels
  have hout := encodeLine_out_length P.num s.fi s.fq h3 (cgenWindow_length hsw) (cgenWindow_length hcw) hlen
  rw [encodeFinite, hwin, hpix] at hf
  obtain ⟨fcb, ffi, ffq, fout⟩ := encodeLine_finite P.num s.fi s.fq sw cw pixels hf
  refine ⟨forall_elements_of_pixels fun i hi => ?_, fun k hk => bufGet_putLine_of_forall fcb (by omega),
    fun k hk => bufGet_putLine_of_forall fout (by omega), ffi, ffq⟩
  obtain ⟨p, hp, hr, hg, hb⟩ := readPixels_get hpix hi
  obtain ⟨fr, fg, fb⟩ := encodeLine_finite_inputs P.num hf p hp
  exact ⟨⟨_, hr, fr⟩, ⟨_, hg, fg⟩, ⟨_, hb, fb⟩⟩

/-- A plain DECODE leaves a command in progress as it is, so one that leaves none found none. -/
theorem idle_of_decodeContext_plain (h : decodeContext P s = .ok t) (hdone : t.waiting = none) :
    s.hmode = 0 → s.waiting = none := by
  intro hm
  obtain ⟨x, pc, -, -, ⟨-, pl, -, hfinish⟩ | ⟨hm', -⟩⟩ := decodeContext_eq_ok h
  · obtain ⟨sw, cw, x', -, -, -, -, -, rfl⟩ := decodeFinish_eq_ok hfinish
    exact hdone
  · exact absurd hm hm'

/-- A DECODE that completes. -/
theorem decodeContext_line_finite (hf : decodeFinite P s = true) (h : decodeContext P s = .ok t) (hdone : t.waiting = none) :
    (∀ k, k < lineWidth s → ∃ v, bufGet s.lineIn k = some v ∧ P.num.finite v = true) ∧
    (∀ k, k < lineWidth s → ∃ c, bufGet t.cb k = some c ∧ P.num.finite c.1 = true ∧ P.num.finite c.2 = true) ∧
    (∀ k, k < 3 * lineWidth s → ∃ v, bufGet t.lineOut k = some v ∧ P.num.finite v = true) ∧
    registersFinite P.num t.fi ∧ registersFinite P.num t.fq := by
  obtain ⟨x, pc, hx, hpc, hmode⟩ := decodeContext_eq_ok h
  cases decodeContext_outcome (idle_of_decodeContext_plain h hdone) hf h with
  | waits queries x d _ _ _ hresult => exact absurd (hresult ▸ hdone) nofun
  | finished answers queries sw cw ls xs x' hwin _ h3 hls hxs hline hresult =>
    obtain ⟨hsw, hcw⟩ := readWindows_eq_ok.1 hwin
    have hpl : s.hmode = 0 → ∃ pl, readHistory .pl s.pl s = .ok pl := fun hm =>
      hmode.elim (fun ⟨_, pl, hpl, _⟩ => ⟨pl, hpl⟩) fun ⟨hm', _⟩ => absurd hm hm'
    have hin := decodeFinite_inputs hwin hx hpc hpl hf
    have hchroma := decodeLine_chroma_length P.num s.fi s.fq (ls := ls) h3 (cgenWindow_length hsw) (cgenWindow_length hcw) hxs
    have hpixels := decodeLine_pixels_length P.num s.fi s.fq h3 (cgenWindow_length hsw) (cgenWindow_length hcw) hls hxs
    have hlen := readSamples_length hx
    rw [hresult]
    refine ⟨fun k hk => ?_, fun k hk => bufGet_putLine_of_forall hline.chroma (hchroma.symm ▸ hk),
      fun k hk => bufGet_putLine_of_forall (numbersFinite_interleave hline.pixels)
        (by rw [interleave_length]; exact hpixels.symm ▸ hk), hline.fi, hline.fq⟩
    have hk' : k < x.length := by omega
    exact ⟨x[k], by rw [(readSamples_get hx hk).2, List.getElem?_eq_getElem hk'], hin _ (List.getElem_mem hk')⟩

/-- Settles O42: by command. -/
theorem completedLineIsFinite : Obligations.CompletedLineIsFinite := by
  intro P i n s t hi hv hnext hdone
  rcases hi with ⟨rfl, rfl⟩ | ⟨rfl, rfl⟩
  · obtain ⟨hf, ht⟩ := requireFinite_eq_next.1 ((encodeWith_context P hv).symm.trans hnext)
    rw [show 4 * lineWidth s - 3 * lineWidth s = lineWidth s by omega]
    exact encodeContext_line_finite hf ht
  · obtain ⟨hf, ht⟩ := requireFinite_eq_next.1 ((decodeWith_context P hv).symm.trans hnext)
    rw [show 4 * lineWidth s - lineWidth s = 3 * lineWidth s by omega]
    exact decodeContext_line_finite hf ht hdone

end Sys2Proof.Machine

/-! PROOFS, formats whose numbers are all finite (93_implementation_defined.md U3): every tracked value that is computed from
finite ones is finite, so no command is refused for a value. -/

namespace Sys2Proof.Machine

/-- Every flag of the list is set. -/
def AllFinite {α : Type} (l : List (Tracked α)) : Prop := ∀ x ∈ l, x.finite = true

theorem listFinite_iff {α : Type} {l : List (Tracked α)} : listFinite l = true ↔ AllFinite l := List.all_eq_true

theorem forall_mem_zipWith {β γ δ : Type} {f : β → γ → δ} {q : δ → Prop} {xs : List β} {ys : List γ}
    (h : ∀ x ∈ xs, ∀ y ∈ ys, q (f x y)) : ∀ v ∈ List.zipWith f xs ys, q v := by
  intro v hv
  obtain ⟨i, hi, rfl⟩ := List.mem_iff_getElem.1 hv
  rw [List.getElem_zipWith]
  exact h _ (List.getElem_mem _) _ (List.getElem_mem _)

theorem AllFinite.zipWith {α β γ : Type} {f : β → γ → Tracked α} {xs : List β} {ys : List γ}
    (h : ∀ x ∈ xs, ∀ y ∈ ys, (f x y).finite = true) : AllFinite (List.zipWith f xs ys) := forall_mem_zipWith h

section
variable {α : Type} {N : NumFormat α} (hN : ∀ v, N.finite v = true)
include hN

theorem allFinite_track (l : List α) : AllFinite (l.map (track N)) := by
  intro x hx
  obtain ⟨v, -, rfl⟩ := List.mem_map.1 hx
  exact hN v

theorem trackResult_finite (v : α) (b : Bool) : (trackResult N v b).finite = b := by
  simp only [trackResult, hN, Bool.and_true]

theorem biquadFinite_track (F : Biquad α) : biquadFinite (trackBiquad N F) = true := by
  simp [biquadFinite, listFinite, trackBiquad, track, hN]

theorem bqInit_finite (fc : Tracked α) (hfc : fc.finite = true) : biquadFinite (bqInit (trackFormat N) fc) = true := by
  simp [biquadFinite, listFinite, bqInit, bqCoefficients, bqPrewarp, trackFormat, trackResult_finite hN, qFactor, numOne,
    numTwo, numZero, track, hN, hfc]

theorem bqProcess_finite {F : Biquad (Tracked α)} {x : Tracked α} (hF : biquadFinite F = true) (hx : x.finite = true) :
    (bqProcess (trackFormat N) F x).1.finite = true ∧ biquadFinite (bqProcess (trackFormat N) F x).2 = true := by
  simp only [biquadFinite, listFinite, List.all_cons, List.all_nil, Bool.and_eq_true, Bool.and_true] at hF ⊢
  obtain ⟨h0, h1, h2, h3, h4, h5, h6⟩ := hF
  simp [bqProcess, trackFormat, trackResult_finite hN, *]

theorem bqRun_finite {F : Biquad (Tracked α)} {xs : List (Tracked α)} (hF : biquadFinite F = true) (hxs : AllFinite xs) :
    AllFinite (bqRun (trackFormat N) F xs).1 ∧ biquadFinite (bqRun (trackFormat N) F xs).2 = true := by
  induction xs generalizing F with
  | nil => exact ⟨nofun, hF⟩
  | cons x xs ih =>
    obtain ⟨hx, hxs⟩ := List.forall_mem_cons.1 hxs
    obtain ⟨hy, hF'⟩ := bqProcess_finite hN hF hx
    obtain ⟨hys, hlast⟩ := ih hF' hxs
    exact ⟨List.forall_mem_cons.2 ⟨hy, hys⟩, hlast⟩

theorem filterLine_finite {F : Biquad (Tracked α)} {xs : List (Tracked α)} (hF : biquadFinite F = true)
    (hxs : AllFinite xs) :
    AllFinite (filterLine (trackFormat N) F xs).1 ∧ biquadFinite (filterLine (trackFormat N) F xs).2 = true := by
  have hzeros : AllFinite (List.replicate shift (numZero (trackFormat N))) := fun x hx =>
    (List.eq_of_mem_replicate hx) ▸ hN _
  obtain ⟨-, hprimed⟩ := bqRun_finite hN hF (fun x hx => hxs x (List.mem_of_mem_take hx) : AllFinite (xs.take shift))
  obtain ⟨hmain, hmain'⟩ := bqRun_finite hN hprimed (fun x hx => hxs x (List.mem_of_mem_drop hx) : AllFinite (xs.drop shift))
  obtain ⟨hdrained, hlast⟩ := bqRun_finite hN hmain' hzeros
  exact ⟨fun x hx => (List.mem_append.1 hx).elim (hmain x) (hdrained x), hlast⟩

theorem mul_finite {x y : Tracked α} (hx : x.finite = true) (hy : y.finite = true) :
    ((trackFormat N).mul x y).finite = true := by
  simp [trackFormat, trackResult_finite hN, hx, hy]

theorem add_finite {x y : Tracked α} (hx : x.finite = true) (hy : y.finite = true) :
    ((trackFormat N).add x y).finite = true := by
  simp [trackFormat, trackResult_finite hN, hx, hy]

theorem ctChroma_finite {p : α × α × α} :
    (ctChroma (trackFormat N) (trackPixel N p)).1.finite = true ∧
      (ctChroma (trackFormat N) (trackPixel N p)).2.finite = true := by
  simp [ctChroma, trackPixel, trackFormat, trackResult_finite hN, track, hN]

theorem ctLuma_finite {p : α × α × α} : (ctLuma (trackFormat N) (trackPixel N p)).finite = true := by
  simp [ctLuma, trackPixel, trackFormat, trackResult_finite hN, track, hN]

theorem ctToRgb_finite {c : Tracked α × Tracked α} {y : Tracked α} (hi : c.1.finite = true) (hq : c.2.finite = true)
    (hy : y.finite = true) :
    listFinite [(ctToRgb (trackFormat N) c y).1, (ctToRgb (trackFormat N) c y).2.1, (ctToRgb (trackFormat N) c y).2.2] =
      true := by
  simp [listFinite, ctToRgb, trackFormat, trackResult_finite hN, track, hN, hi, hq, hy]

theorem encodedLineFinite_track (fi fq : Biquad α) (sw cw : List α) (pixels : List (α × α × α)) :
    encodedLineFinite (encodeLine (trackFormat N) (trackBiquad N fi) (trackBiquad N fq) (sw.map (track N))
      (cw.map (track N)) (pixels.map (trackPixel N))) = true := by
  have hI : AllFinite (((pixels.map (trackPixel N)).map (ctChroma (trackFormat N))).map Prod.fst) := by
    simp only [AllFinite, List.forall_mem_map]
    exact fun p _ => (ctChroma_finite hN).1
  have hQ : AllFinite (((pixels.map (trackPixel N)).map (ctChroma (trackFormat N))).map Prod.snd) := by
    simp only [AllFinite, List.forall_mem_map]
    exact fun p _ => (ctChroma_finite hN).2
  have hY : AllFinite ((pixels.map (trackPixel N)).map (ctLuma (trackFormat N))) := by
    simp only [AllFinite, List.forall_mem_map]
    exact fun p _ => ctLuma_finite hN
  obtain ⟨hus, hfi⟩ := filterLine_finite hN (biquadFinite_track hN fi) hI
  obtain ⟨hvs, hfq⟩ := filterLine_finite hN (biquadFinite_track hN fq) hQ
  have hcarrier : AllFinite (carrierSum (trackFormat N) _ _ (sw.map (track N)) (cw.map (track N))) :=
    .zipWith fun x hx y hy => add_finite hN
      (AllFinite.zipWith (fun u hu s hs => mul_finite hN (hus u hu) (allFinite_track hN sw s hs)) x hx)
      (AllFinite.zipWith (fun v hv c hc => mul_finite hN (hvs v hv) (allFinite_track hN cw c hc)) y hy)
  have hout : AllFinite (encodeLine (trackFormat N) (trackBiquad N fi) (trackBiquad N fq) (sw.map (track N))
      (cw.map (track N)) (pixels.map (trackPixel N))).out :=
    .zipWith fun x hx y hy => add_finite hN (hcarrier x hx) (hY y hy)
  simp only [encodedLineFinite, Bool.and_eq_true]
  exact ⟨⟨⟨⟨listFinite_iff.2 hI, listFinite_iff.2 hQ⟩, hfi⟩, hfq⟩, listFinite_iff.2 hout⟩

theorem decodedLineFinite_track (fi fq : Biquad α) (sw cw : List α) {ls xs : List (Tracked α)} (hls : AllFinite ls)
    (hxs : AllFinite xs) :
    decodedLineFinite (decodeLine (trackFormat N) (trackBiquad N fi) (trackBiquad N fq) (sw.map (track N))
      (cw.map (track N)) ls xs) = true := by
  have hgain : (demodGain (trackFormat N)).finite = true := hN _
  obtain ⟨hus, hfi⟩ := filterLine_finite hN (biquadFinite_track hN fi)
    (.zipWith fun x hx s hs => mul_finite hN (hxs x hx) (allFinite_track hN sw s hs))
  obtain ⟨hvs, hfq⟩ := filterLine_finite hN (biquadFinite_track hN fq)
    (.zipWith fun x hx c hc => mul_finite hN (hxs x hx) (allFinite_track hN cw c hc))
  have hchroma : ∀ c ∈ (decodeLine (trackFormat N) (trackBiquad N fi) (trackBiquad N fq) (sw.map (track N))
      (cw.map (track N)) ls xs).chroma, c.1.finite = true ∧ c.2.finite = true :=
    forall_mem_zipWith fun u hu v hv => ⟨mul_finite hN hgain (hus u hu), mul_finite hN hgain (hvs v hv)⟩
  simp only [decodedLineFinite, Bool.and_eq_true]
  refine ⟨⟨⟨⟨?_, ?_⟩, hfi⟩, hfq⟩, List.all_eq_true.2 ?_⟩
  · exact listFinite_iff.2 (List.forall_mem_map.2 fun c hc => (hchroma c hc).1)
  · exact listFinite_iff.2 (List.forall_mem_map.2 fun c hc => (hchroma c hc).2)
  · exact forall_mem_zipWith fun c hc y hy => ctToRgb_finite hN (hchroma c hc).1 (hchroma c hc).2 (hls y hy)

/-! ### The canceller -/

theorem hrcBlock_finite (b : Nat) (answer : List (Estimate α)) {ls : List (Tracked α)} (hls : AllFinite ls) :
    AllFinite (hrcBlock (trackFormat N) b (answer.map (trackEstimate N)) ls) := by
  rw [hrcBlock, ← List.map_take, hrcSelect_track]
  cases hrcSelect N (answer.take kEst) with
  | none => exact hls
  | some e =>
    intro x hx
    obtain ⟨i, hi, rfl⟩ := List.mem_mapIdx.1 hx
    have hv := hls _ (List.getElem_mem hi)
    split
    · simp [hrcSinusoid, trackEstimate, trackFormat, trackResult_finite hN, numOfNat, track, hN, hv]
    · exact hv

/-- The luma line of a canceller that has stopped. -/
def CancelResult.line : CancelResult α → List α
  | .done ls _ _ => ls
  | .waiting _ ls _ => ls

theorem hrcLoop_finite (w fuel b : Nat) (xs : List (Tracked α)) {ls : List (Tracked α)} (hls : AllFinite ls)
    (answers : List (List (Estimate α))) (sent : List (Query (Tracked α))) :
    AllFinite
      (hrcLoop (trackFormat N) w xs fuel b ls (answers.map (List.map (trackEstimate N))) sent).line := by
  induction fuel generalizing b ls answers sent with
  | zero => exact hls
  | succ fuel ih =>
    rw [hrcLoop_succ]
    split
    · cases answers with
      | nil => exact hls
      | cons a as => exact ih (b + 1) (hrcBlock_finite hN b a hls) as _
    · exact hls

theorem comb_finite {f : Tracked α → Tracked α → Tracked α}
    (hf : ∀ x y : Tracked α, x.finite = true → y.finite = true → (f x y).finite = true) (x y : List α) :
    AllFinite (List.zipWith (fun a b => (trackFormat N).div (f a b) (numTwo (trackFormat N))) (x.map (track N))
      (y.map (track N))) :=
  .zipWith fun a ha b hb => by
    simp [trackFormat, trackResult_finite hN, numTwo, track, hN,
      hf a b (allFinite_track hN x a ha) (allFinite_track hN y b hb)]

theorem combLuma_finite (x pl : List α) : AllFinite (combLuma (trackFormat N) (x.map (track N)) (pl.map (track N))) :=
  comb_finite hN (fun _ _ => add_finite hN) x pl

theorem combChroma_finite (x pc : List α) :
    AllFinite (combChroma (trackFormat N) (x.map (track N)) (pc.map (track N))) :=
  comb_finite hN (fun a b ha hb => by simp [trackFormat, trackResult_finite hN, ha, hb]) x pc

end

/-! ### The commands -/

section
variable {P : Params Number} (hN : ∀ v, P.num.finite v = true)
include hN

theorem createFinite_of_finite (width : Nat) : createFinite P.num width = true := by
  have table : ∀ g : Nat → Tracked Number, (∀ i, (g i).finite = true) →
      listFinite ((bufTabulate (2 * width) g).map Prod.snd) = true := by
    intro g hg
    rw [bufTabulate_values, listFinite_iff]
    exact List.forall_mem_map.2 fun i _ => hg i
  simp only [createFinite, Bool.and_eq_true]
  have hangle : ∀ i, (carrierAngle (trackFormat P.num) width i).finite = true := fun i => by
    simp [carrierAngle, numOfNat, trackFormat, trackResult_finite hN, track, hN]
  refine ⟨⟨⟨table _ fun i => ?_, table _ fun i => ?_⟩, bqInit_finite hN _ (hN _)⟩, bqInit_finite hN _ (hN _)⟩
  · exact (trackResult_finite hN _ _).trans (hangle i)
  · exact (trackResult_finite hN _ _).trans (hangle i)

theorem encodeFinite_of_finite (s : State) : encodeFinite P s = true := by
  unfold encodeFinite
  split
  · exact encodedLineFinite_track hN s.fi s.fq _ _ _
  · rfl

theorem finishFinite_of_finite (s : State) {ls xs : List (Tracked Number)} (hls : AllFinite ls) (hxs : AllFinite xs) :
    finishFinite P s ls xs = true := by
  unfold finishFinite
  split
  · exact decodedLineFinite_track hN s.fi s.fq _ _ hls hxs
  · rfl

theorem cancelFinite_of_finite (s : State) {xs : List (Tracked Number)} (hxs : AllFinite xs)
    {r : CancelResult (Tracked Number)} (hr : AllFinite r.line) : cancelFinite P s xs r = true := by
  cases r with
  | done ls answers sent => exact finishFinite_of_finite hN s hr hxs
  | waiting b ls sent => exact Bool.and_eq_true_iff.2 ⟨listFinite_iff.2 hr, listFinite_iff.2 hxs⟩

theorem decodeFinite_of_finite (s : State) : decodeFinite P s = true := by
  simp only [decodeFinite]
  split
  · rename_i x pc _ _
    have hxs := combChroma_finite hN x pc
    split
    · split
      · exact finishFinite_of_finite hN s (combLuma_finite hN x _) hxs
      · rfl
    · exact cancelFinite_of_finite hN s hxs (hrcLoop_finite hN _ _ _ _ (allFinite_track hN x) s.estAnswers [])
  · rfl

theorem resumeFinite_of_finite (s : State) (d : Waiting) (a : List (Estimate Number))
    (as : List (List (Estimate Number))) : resumeFinite P s d a as = true :=
  cancelFinite_of_finite hN s (allFinite_track hN d.xs)
    (hrcLoop_finite hN _ _ _ _ (hrcBlock_finite hN d.block a (allFinite_track hN d.ls)) as [])

end

theorem requireFinite_true_ne_refused {r : Except Fault State} {e : Refusal} : requireFinite true r ≠ .refused e := by
  cases r <;> nofun

/-- Settles O43: the flag of every command is set, so only the check of the width can refuse one. -/
theorem finiteFormatsAreNeverRefused : Obligations.FiniteFormatsAreNeverRefused := by
  intro P hN s r
  refine ⟨?_, ?_, fun d => ?_, fun width h hc => ?_⟩
  · rcases ctxValid_cases s with hv | hv
    · rw [encodeWith_no_context P hv]; exact nofun
    · rw [encodeWith_context P hv, encodeFinite_of_finite hN]; exact requireFinite_true_ne_refused
  · rcases ctxValid_cases s with hv | hv
    · rw [decodeWith_no_context P hv]; exact nofun
    · rw [decodeWith_context P hv, decodeFinite_of_finite hN]; exact requireFinite_true_ne_refused
  · unfold waitingStep
    split
    · exact nofun
    · split
      · exact nofun
      · rw [resumeFinite_of_finite hN]; exact requireFinite_true_ne_refused
  · rcases ctxValid_cases s with hv | hv
    · rw [createWith_no_context P width h hv, createFinite_of_finite hN] at hc
      split_ifs at hc with hlimit hlow hstore
      · cases hc; exact ⟨rfl, hlow⟩
      · exact absurd hc requireFinite_true_ne_refused
    · cases (createWith_context P width h hv).symm.trans hc

end Sys2Proof.Machine
